-- ==== Sys2Proof/Word.lean ====
section
/-! DEFINITION. The value types of the instruction word codec: the 64-bit instruction word (R11), the
12-bit opcode and its two parts (R43), the 5-bit register field (R16), and the operand port widths (R12). -/

namespace Sys2Proof

/-- An instruction word: an opaque 64-bit value, equal to another exactly when their 64 bits are (R11, R40). -/
abbrev Word := BitVec 64

/-- One byte of a loader's storage.  The codec itself never splits a word into bytes (R32). -/
abbrev Byte := BitVec 8

/-- A 12-bit opcode, bits [11:10] the format tag and bits [9:0] the operation number (R43). -/
abbrev Opcode := BitVec 12

/-- The 2-bit format tag; `builder_sel` has the same encoding (R12, R44). -/
abbrev Tag := BitVec 2

/-- The 10-bit operation number (R43, R54). -/
abbrev OperationNumber := BitVec 10

/-- A 5-bit register field (R16). -/
abbrev RegNum := BitVec 5

/-- A register-number input port of a builder, `REG_IN_W` = 8 bits (R6, R12; decision D2). -/
abbrev RegIn := BitVec 8

/-- An immediate or offset input port of a builder, `VAL_IN_W` = 64 bits (R6, R12; decision D2). -/
abbrev ValIn := BitVec 64

end Sys2Proof
end

