-- ==== Sys2Proof/Config.lean ====
section
/-! DEFINITION. What an implementation fixes: the widths of R5 as constants, and the named parameters of R6.
The parameters that decide which table row a word belongs to are `Params`; the parameters only a consumer
reads are `ConsumerParams`, an argument of the functions in Machine/Consumer.lean. -/

namespace Sys2Proof

namespace Config

/-- Width of an instruction word (R5). -/
def wordWidth : Nat := 64
/-- Width of an opcode (R5). -/
def opcodeWidth : Nat := 12
/-- Width of the format tag (R5). -/
def formatTagWidth : Nat := 2
/-- Width of the operation number (R5). -/
def operationNumberWidth : Nat := 10
/-- Width of a register field (R5). -/
def registerWidth : Nat := 5
/-- Width of the mode field (R5). -/
def modeWidth : Nat := 3
/-- Width of the extended region (R5). -/
def extendedWidth : Nat := 34
/-- Width of the I-type immediate (R5, R62; `90_conflicts.md` C1). -/
def immediateWidth : Nat := 34
/-- Width of the B-type branch offset (R5). -/
def branchOffsetWidth : Nat := 48
/-- Width of the M-type memory offset (R5). -/
def memoryOffsetWidth : Nat := 32
/-- Width of the shift-type sub-field (R5). -/
def shiftTypeWidth : Nat := 2
/-- Width of the shift-amount sub-field (R5). -/
def shiftAmountWidth : Nat := 6
/-- Number of formats (R5). -/
def formatCount : Nat := 4

end Config

/-- One entry of `OPERATION_TABLE`: a name and its 12-bit opcode (R6, R55). -/
structure Operation where
  name : String
  opcode : Opcode
  deriving DecidableEq, Repr

/-- The build-time parameters of R6 that the decoder of this model's syntax reads: the three OPEN opcodes
(decision D8) and the rest of `OPERATION_TABLE` (decision D9).  R157: fixed before any use. -/
structure Params where
  /-- `OPC_ADD_REG`; bits [11:10] must be `00`. -/
  opcAddReg : Opcode
  /-- `OPC_B`; bits [11:10] must be `10`. -/
  opcB : Opcode
  /-- `OPC_LDR`; bits [11:10] must be `11`. -/
  opcLdr : Opcode
  /-- The defined operations besides the three the source names (R132). -/
  others : List Operation
  deriving DecidableEq, Repr

/-- `OPERATION_TABLE`: it contains ADD_REG, B and LDR by construction (R6). -/
def Params.operationTable (p : Params) : List Operation :=
  ⟨"ADD_REG", p.opcAddReg⟩ :: ⟨"B", p.opcB⟩ :: ⟨"LDR", p.opcLdr⟩ :: p.others

/-- The default column of R6: DESIGN CHOICE of the spec (decisions D8, D9), not of the source; log entry 2. -/
def Config.defaultParams : Params :=
  { opcAddReg := 0x200, opcB := 0x800, opcLdr := 0xD00, others := [] }

/-- An order in which the eight bytes of a word may stand in byte-addressed storage (`WORD_BYTE_ORDER`, R32): any
arrangement of the eight.  Byte number `i` of a word is its bits `[8i+7 : 8i]`. -/
structure ByteOrder where
  /-- The number of the byte that stands at each address, the lowest address first. -/
  byteAt : Vector (Fin 8) 8
  /-- Each byte stands at one address only, and so all eight stand somewhere. -/
  distinct : byteAt.toList.Nodup
  deriving DecidableEq, Repr

/-- The order with bits [7:0] at the lowest address, one of the values `WORD_BYTE_ORDER` may take. -/
def ByteOrder.leastSignificantFirst : ByteOrder := ⟨#v[0, 1, 2, 3, 4, 5, 6, 7], by decide⟩

/-- The order with bits [63:56] at the lowest address, one of the values `WORD_BYTE_ORDER` may take. -/
def ByteOrder.mostSignificantFirst : ByteOrder := ⟨#v[7, 6, 5, 4, 3, 2, 1, 0], by decide⟩

/-- The OPEN parameters of R6 that only a consumer reads.  They stay arguments (`91_not_in_source.md` N6 to N8,
N11, N15): no value is chosen for any of them anywhere in this model. -/
structure ConsumerParams where
  /-- The operations that take a shifted-register operand, a property of `OPERATION_TABLE` (R50). -/
  shiftedOperations : List Opcode
  /-- `IMM_SIGNED(op)`: the operations whose `immediate` is read as signed. -/
  signedImmediates : List Opcode
  /-- `MOFF_SIGNED`: whether `memory_offset` is read as signed. -/
  memoryOffsetSigned : Bool
  /-- `MODE_SEMANTICS`: the meaning, if any, of a value of the `mode` field in a word of an opcode.  The spec assigns
  none (R51), which is the empty list; log entry 15. -/
  modeSemantics : List ((Opcode × BitVec 3) × String)
  /-- `SHIFT_TYPE_NAMES`: members and values of ShiftType, which travel in the 2-bit field (R18). -/
  shiftTypeNames : List (BitVec 2 × String)
  /-- `CONDITION_NAMES`: members and values of Condition; no word field is given for them (R18). -/
  conditionNames : List (Nat × String)
  /-- `MEMORY_MODE_NAMES`: members and values of MemoryMode; no word field is given for them (R18). -/
  memoryModeNames : List (Nat × String)
  /-- `WORD_BYTE_ORDER` (R32). -/
  wordByteOrder : ByteOrder
  deriving DecidableEq, Repr

end Sys2Proof
end

