-- ==== Sys2Proof/Syntax.lean ====
section
/-! DEFINITION. The syntax: the four formats (R44), the register vocabulary (R16), and `Instr`, one constructor
per row of spec/opcode_table.json.  A constructor carries EVERY bit of the word that its row leaves open, the
ignored bits too (R56), so that an instruction is its word and no bit is dropped. -/

namespace Sys2Proof

/-- The four mutually exclusive formats (R44); the codec never orders them (R71). -/
inductive Format where
  | R
  | I
  | B
  | M
  deriving DecidableEq, Repr

/-- The closed Register enumeration X0 to X30, SP (R16). -/
inductive Register where
  | x (n : Fin 31)
  | sp
  deriving DecidableEq, Repr

/-- An instruction word, read by the rows of spec/opcode_table.json (R125 to R131).  Fields named `ignored` and
`rest` are the bits the row's pattern writes `-`; `mode` is a `---` of the R-type pattern (R51). -/
inductive Instr where
  /-- R_FORMAT, R125: any R-type word whose opcode is not ADD_REG's. -/
  | rFormat (n : OperationNumber) (rd rn rm : RegNum) (mode : BitVec 3) (shiftType : BitVec 2)
      (shiftAmount : BitVec 6) (rest : BitVec 26)
  /-- I_FORMAT, R126: any I-type word; `ignored` is word bits [41:34]. -/
  | iFormat (n : OperationNumber) (rd rn : RegNum) (ignored : BitVec 8) (imm : BitVec 34)
  /-- B_FORMAT, R127: any B-type word whose opcode is not B's; `ignored` is word bits [51:48]. -/
  | bFormat (n : OperationNumber) (ignored : BitVec 4) (offset : BitVec 48)
  /-- M_FORMAT, R128: any M-type word whose opcode is not LDR's; `ignored` is word bits [41:32]. -/
  | mFormat (n : OperationNumber) (rd rn : RegNum) (ignored : BitVec 10) (offset : BitVec 32)
  /-- ADD_REG, R129: an R-type word whose opcode is `OPC_ADD_REG`. -/
  | addReg (rd rn rm : RegNum) (mode : BitVec 3) (shiftType : BitVec 2) (shiftAmount : BitVec 6)
      (rest : BitVec 26)
  /-- B, R130: a B-type word whose opcode is `OPC_B`. -/
  | b (ignored : BitVec 4) (offset : BitVec 48)
  /-- LDR, R131: an M-type word whose opcode is `OPC_LDR`. -/
  | ldr (rd rn : RegNum) (ignored : BitVec 10) (offset : BitVec 32)
  deriving DecidableEq, Repr

/-- The format of each row of the table. -/
def Instr.format : Instr → Format
  | .rFormat _ _ _ _ _ _ _ _ => .R
  | .iFormat _ _ _ _ _ => .I
  | .bFormat _ _ _ => .B
  | .mFormat _ _ _ _ _ => .M
  | .addReg _ _ _ _ _ _ _ => .R
  | .b _ _ => .B
  | .ldr _ _ _ _ => .M

end Sys2Proof
end

