-- ==== Sys2Proof/Machine/Ports.lean ====
section
/-! DEFINITION. The ports of the four sub-blocks as plain records (R12 to R15), the routed decode's four-variant
payload (R113), and the invocations a producer or a consumer can make (R34). -/

namespace Sys2Proof.Machine

/-- Input ports of `instruction_word_encoder` in the rendering with one shared output: `builder_sel`, `op` and
the operands of the four builders (R12).  The encode face of `format_router` reads the same ports but
`builder_sel` (R15). -/
structure EncoderIn where
  builderSel : Tag
  op : Opcode
  rd : RegIn
  rn : RegIn
  rm : RegIn
  imm : ValIn
  boffset : ValIn
  moffset : ValIn
  deriving DecidableEq, Repr

/-- Output ports driven from `EncoderIn`: the encoder's `word` (R12), the router's word and the two advisory
bits (R15). -/
structure EncoderOut where
  word : Word
  routedWord : Word
  builderMismatch : Bool
  operandOverflow : Bool
  deriving DecidableEq, Repr

/-- Output ports of `instruction_word_decoder`, all driven at once (R13, R104). -/
structure AccessorRecord where
  opcode : Opcode
  rd : RegNum
  rn : RegNum
  rm : RegNum
  mode : BitVec 3
  extended : BitVec 34
  immediate : BitVec 34
  branchOffset : BitVec 48
  memoryOffset : BitVec 32
  shiftType : BitVec 2
  shiftAmount : BitVec 6
  deriving DecidableEq, Repr

/-- Output ports of `opcode_classifier` for its `opcode` input (R14). -/
structure ClassifierOut where
  formatTag : Tag
  isRType : Bool
  isIType : Bool
  isBType : Bool
  isMType : Bool
  operationNumber : OperationNumber
  deriving DecidableEq, Repr

/-- The routed decode: one variant per format, holding the opcode and only that format's valid fields; the R
variant carries the shift sub-fields besides, and no variant carries `mode` (R113). -/
inductive Payload where
  | R (opcode : Opcode) (rd rn rm : RegNum) (shiftType : BitVec 2) (shiftAmount : BitVec 6)
  | I (opcode : Opcode) (rd rn : RegNum) (immediate : BitVec 34)
  | B (opcode : Opcode) (branchOffset : BitVec 48)
  | M (opcode : Opcode) (rd rn : RegNum) (memoryOffset : BitVec 32)
  deriving DecidableEq, Repr

/-- Output ports of the decode face of `format_router` (R15). -/
structure RoutedOut where
  opcode : Opcode
  format : Format
  payload : Payload
  meaningfulMask : Word
  deriving DecidableEq, Repr

/-- One invocation of the codec by its surroundings (R34, R167): whole inputs are handed over at once. -/
inductive Invocation where
  /-- A consumer presents an instruction word to the decoder, the classifier and the router. -/
  | decode (w : Word)
  /-- A caller presents an opcode to the classifier (R14). -/
  | classify (op : Opcode)
  /-- A caller composes an opcode (R14, R70). -/
  | compose (tag : Tag) (n : OperationNumber)
  /-- A producer uses the builder it names in `builderSel`, matching or not (R12, R85). -/
  | build (x : EncoderIn)
  /-- A producer uses the builder the opcode calls for (R15, R111). -/
  | route (op : Opcode) (rd rn rm : RegIn) (imm boffset moffset : ValIn)
  deriving DecidableEq, Repr

end Sys2Proof.Machine
end

