-- ==== Sys2Proof/Machine/Layout.lean ====
section
/-! DEFINITION. The word layout: the logical fields with their offsets and widths (R41, R42), their masks, and
the fixed shift-and-mask extraction every accessor is made of (R103). -/

namespace Sys2Proof.Machine

/-- The logical fields of R42, the physical ones of R41 among them. -/
inductive Field where
  | opcode
  | formatTag
  | operationNumber
  | rd
  | rn
  | rm
  | mode
  | extended
  | immediate
  | branchOffset
  | memoryOffset
  | shiftType
  | shiftAmount
  deriving DecidableEq, Repr

/-- Column "Offset" of R42. -/
def Field.lo : Field → Nat
  | .opcode => 52
  | .formatTag => 62
  | .operationNumber => 52
  | .rd => 47
  | .rn => 42
  | .rm => 37
  | .mode => 34
  | .extended => 0
  | .immediate => 0
  | .branchOffset => 0
  | .memoryOffset => 0
  | .shiftType => 32
  | .shiftAmount => 26

/-- Column "Width" of R42, by the widths of R5. -/
def Field.width : Field → Nat
  | .opcode => Config.opcodeWidth
  | .formatTag => Config.formatTagWidth
  | .operationNumber => Config.operationNumberWidth
  | .rd => Config.registerWidth
  | .rn => Config.registerWidth
  | .rm => Config.registerWidth
  | .mode => Config.modeWidth
  | .extended => Config.extendedWidth
  | .immediate => Config.immediateWidth
  | .branchOffset => Config.branchOffsetWidth
  | .memoryOffset => Config.memoryOffsetWidth
  | .shiftType => Config.shiftTypeWidth
  | .shiftAmount => Config.shiftAmountWidth

/-- Column "Value mask" of R42, `2^w - 1`. -/
def Field.valueMask (f : Field) : Word := BitVec.ofNat 64 (2 ^ f.width - 1)

/-- Column "Mask in the word" of R42. -/
def Field.wordMask (f : Field) : Word := f.valueMask <<< f.lo

/-- `(W >> lo) & (2^n - 1)` as a value of width `n`: the fixed shift and mask every accessor is made of, with no
sign extension and no scaling (R42, R103). -/
def fieldAt (lo n : Nat) (w : Word) : BitVec n :=
  ((w >>> lo) &&& BitVec.ofNat 64 (2 ^ n - 1)).setWidth n

/-- A logical field of a word, at the position R42 gives it. -/
def Field.extract (f : Field) (w : Word) : BitVec f.width := fieldAt f.lo f.width w

/-- The 2-bit number of a format (R44). -/
def formatNumber : Format → Tag
  | .R => 0b00#2
  | .I => 0b01#2
  | .B => 0b10#2
  | .M => 0b11#2

/-- The format a 2-bit tag selects (R44). -/
def formatOfTag (t : Tag) : Format :=
  if t = 0b00#2 then .R else if t = 0b01#2 then .I else if t = 0b10#2 then .B else .M

/-- The six physical fields of R41, most significant first. -/
def physicalFields : List Field := [.opcode, .rd, .rn, .rm, .mode, .extended]

end Sys2Proof.Machine
end

