-- ==== Sys2Proof/Machine/Classifier.lean ====
section
/-! DEFINITION. The sub-block `opcode_classifier` (R70 to R78): composing an opcode and classifying it. -/

namespace Sys2Proof.Machine

/-- `FORMAT_MASK`, the source's `0b1100_0000_0000`. -/
def formatMask : Opcode := 0xC00#12
/-- Tag pattern of R-type at opcode bits [11:10]. -/
def tagPatternR : Opcode := 0x000#12
/-- Tag pattern of I-type. -/
def tagPatternI : Opcode := 0x400#12
/-- Tag pattern of B-type. -/
def tagPatternB : Opcode := 0x800#12
/-- Tag pattern of M-type. -/
def tagPatternM : Opcode := 0xC00#12

/-- `make_opcode(format_tag, operation_number)` (R70); the number is 10 bits by its type, never masked. -/
def makeOpcode (tag : Tag) (n : OperationNumber) : Opcode :=
  (tag.setWidth 12 <<< 10) ||| n.setWidth 12

/-- `format_tag_of(opcode)`: the mask compared against the four tag patterns (R71). -/
def formatTagOf (op : Opcode) : Format :=
  if op &&& formatMask = tagPatternR then .R
  else if op &&& formatMask = tagPatternI then .I
  else if op &&& formatMask = tagPatternB then .B
  else .M

/-- `is_r_type(opcode)` (R72). -/
def isRType (op : Opcode) : Bool := op &&& formatMask == tagPatternR
/-- `is_i_type(opcode)` (R73). -/
def isIType (op : Opcode) : Bool := op &&& formatMask == tagPatternI
/-- `is_b_type(opcode)` (R74). -/
def isBType (op : Opcode) : Bool := op &&& formatMask == tagPatternB
/-- `is_m_type(opcode)` (R75). -/
def isMType (op : Opcode) : Bool := op &&& formatMask == tagPatternM

/-- `operation_number_of(opcode) = opcode & 0x3FF` (R77). -/
def operationNumberOf (op : Opcode) : OperationNumber := (op &&& 0x3FF#12).setWidth 10

/-- `format_of_word(W) = format_tag_of(W[63:52])` (R78). -/
def formatOfWord (w : Word) : Format := formatTagOf (fieldAt 52 12 w)

/-- The classifier's outputs for one opcode (R14). -/
def classify (op : Opcode) : ClassifierOut :=
  { formatTag := formatNumber (formatTagOf op)
    isRType := isRType op
    isIType := isIType op
    isBType := isBType op
    isMType := isMType op
    operationNumber := operationNumberOf op }

end Sys2Proof.Machine
end

