-- ==== Sys2Proof/Machine/Decoder.lean ====
section
/-! DEFINITION. The sub-block `instruction_word_decoder` (R90 to R104): the flat accessors, each a total function
of the word alone whatever its format (R102), and the record of them all. -/

namespace Sys2Proof.Machine

/-- `opcode(W) = W[63:52]` (R91). -/
def opcodeOf (w : Word) : Opcode := fieldAt 52 12 w
/-- The format tag of a word, `W[63:62]` (R42, R45). -/
def tagOf (w : Word) : Tag := fieldAt 62 2 w
/-- `rd(W) = W[51:47]` (R92). -/
def rdOf (w : Word) : RegNum := fieldAt 47 5 w
/-- `rn(W) = W[46:42]` (R93). -/
def rnOf (w : Word) : RegNum := fieldAt 42 5 w
/-- `rm(W) = W[41:37]` (R94). -/
def rmOf (w : Word) : RegNum := fieldAt 37 5 w
/-- `mode(W) = W[36:34]`, raw bits with no meaning in any format (R95; decision D6). -/
def modeOf (w : Word) : BitVec 3 := fieldAt 34 3 w
/-- `extended(W) = W[33:0]` (R96). -/
def extendedOf (w : Word) : BitVec 34 := fieldAt 0 34 w
/-- `immediate(W) = W[33:0]`, unsigned (R97). -/
def immediateOf (w : Word) : BitVec 34 := fieldAt 0 34 w
/-- `branch_offset(W) = W[47:0]`, unsigned and unscaled (R98). -/
def branchOffsetOf (w : Word) : BitVec 48 := fieldAt 0 48 w
/-- `memory_offset(W) = W[31:0]`, unsigned and unscaled (R99). -/
def memoryOffsetOf (w : Word) : BitVec 32 := fieldAt 0 32 w
/-- `shift_type(W) = W[33:32]` (R100). -/
def shiftTypeOf (w : Word) : BitVec 2 := fieldAt 32 2 w
/-- `shift_amount(W) = W[31:26]` (R101). -/
def shiftAmountOf (w : Word) : BitVec 6 := fieldAt 26 6 w

/-- `decode_all(W)`: every flat accessor of one word (R104). -/
def decodeAll (w : Word) : AccessorRecord :=
  { opcode := opcodeOf w
    rd := rdOf w
    rn := rnOf w
    rm := rmOf w
    mode := modeOf w
    extended := extendedOf w
    immediate := immediateOf w
    branchOffset := branchOffsetOf w
    memoryOffset := memoryOffsetOf w
    shiftType := shiftTypeOf w
    shiftAmount := shiftAmountOf w }

/-- The word a record of accessor values was read from, as the concatenation of R104. -/
def reassemble (a : AccessorRecord) : Word :=
  a.opcode ++ a.rd ++ a.rn ++ a.rm ++ a.mode ++ a.extended

end Sys2Proof.Machine
end

