-- ==== Sys2Proof/Machine/Operands.lean ====
section
/-! DEFINITION. Operand handling: the named truncation of R80, the packing of a field into its position, the
words of the table's rows bit by bit (R125 to R128), and the names of register numbers (R16). -/

namespace Sys2Proof.Machine

/-- `truncate_to_width(v, n) = v mod 2^n`, the named, silent truncation (R80). -/
def truncateToWidth {m : Nat} (v : BitVec m) (n : Nat) : BitVec n :=
  BitVec.ofNat n (v.toNat % 2 ^ n)

/-- The inputs with every operand cut to its own field beforehand, as a producer that means the truncation may
present them (R80, R118). -/
def EncoderIn.truncated (x : EncoderIn) : EncoderIn :=
  { x with
    rd := (truncateToWidth x.rd 5).setWidth 8
    rn := (truncateToWidth x.rn 5).setWidth 8
    rm := (truncateToWidth x.rm 5).setWidth 8
    imm := (truncateToWidth x.imm 34).setWidth 64
    boffset := (truncateToWidth x.boffset 48).setWidth 64
    moffset := (truncateToWidth x.moffset 32).setWidth 64 }

/-- A field value placed at offset `lo` of an otherwise zero word, the `<<` of the builders' pseudocode (R81). -/
def packAt {n : Nat} (v : BitVec n) (lo : Nat) : Word := v.setWidth 64 <<< lo

/-- The R-type pattern of R125 from bit 63 to bit 0. -/
def rWord (op : Opcode) (rd rn rm : RegNum) (mode : BitVec 3) (shiftType : BitVec 2)
    (shiftAmount : BitVec 6) (rest : BitVec 26) : Word :=
  op ++ rd ++ rn ++ rm ++ mode ++ shiftType ++ shiftAmount ++ rest

/-- The I-type pattern of R126 from bit 63 to bit 0. -/
def iWord (op : Opcode) (rd rn : RegNum) (ignored : BitVec 8) (imm : BitVec 34) : Word :=
  op ++ rd ++ rn ++ ignored ++ imm

/-- The B-type pattern of R127 from bit 63 to bit 0. -/
def bWord (op : Opcode) (ignored : BitVec 4) (offset : BitVec 48) : Word :=
  op ++ ignored ++ offset

/-- The M-type pattern of R128 from bit 63 to bit 0. -/
def mWord (op : Opcode) (rd rn : RegNum) (ignored : BitVec 10) (offset : BitVec 32) : Word :=
  op ++ rd ++ rn ++ ignored ++ offset

/-- Encoding `n` from 0 to 30 names X`n`, encoding 31 names SP (R16; decision D12). -/
def registerName (r : RegNum) : Register :=
  if h : r.toNat < 31 then .x ⟨r.toNat, h⟩ else .sp

/-- The encoding of a register name, the inverse reading of R16. -/
def registerNumber : Register → RegNum
  | .x n => BitVec.ofNat 5 n.val
  | .sp => 31#5

end Sys2Proof.Machine
end

