-- ==== Sys2Proof/Machine/Encoder.lean ====
section
/-! DEFINITION. The sub-block `instruction_word_encoder` (R80 to R86): four builders, total and pure, that
truncate every operand silently and never look at the tag bits of `op`.  Bits that no operand is packed into are 0
(R86; log entry 7). -/

namespace Sys2Proof.Machine

/-- `build_r(op, rd, rn, rm)` (R81); bits [36:0] are 0. -/
def buildR (op : Opcode) (rd rn rm : RegIn) : Word :=
  packAt op 52 ||| packAt (truncateToWidth rd 5) 47 ||| packAt (truncateToWidth rn 5) 42
    ||| packAt (truncateToWidth rm 5) 37

/-- `build_i(op, rd, rn, imm)` (R82); bits [41:34] are 0. -/
def buildI (op : Opcode) (rd rn : RegIn) (imm : ValIn) : Word :=
  packAt op 52 ||| packAt (truncateToWidth rd 5) 47 ||| packAt (truncateToWidth rn 5) 42
    ||| packAt (truncateToWidth imm 34) 0

/-- `build_b(op, offset)` (R83); bits [51:48] are 0. -/
def buildB (op : Opcode) (offset : ValIn) : Word :=
  packAt op 52 ||| packAt (truncateToWidth offset 48) 0

/-- `build_m(op, rd, rn, offset)` (R84); bits [41:32] are 0. -/
def buildM (op : Opcode) (rd rn : RegIn) (offset : ValIn) : Word :=
  packAt op 52 ||| packAt (truncateToWidth rd 5) 47 ||| packAt (truncateToWidth rn 5) 42
    ||| packAt (truncateToWidth offset 32) 0

/-- The shared-output rendering: `builder_sel` picks the builder by the
encoding of the format tag, whatever the tag bits of `op` are (R12, R85). -/
def buildSelected (x : EncoderIn) : Word :=
  match formatOfTag x.builderSel with
  | .R => buildR x.op x.rd x.rn x.rm
  | .I => buildI x.op x.rd x.rn x.imm
  | .B => buildB x.op x.boffset
  | .M => buildM x.op x.rd x.rn x.moffset

end Sys2Proof.Machine
end

