-- ==== Sys2Proof/Machine/Flags.lean ====
section
/-! DEFINITION. The only one-bit reports of the codec: the two advisory checks of `format_router` (R117, R118).
They never alter, block or delay a word, and neither suppresses the other (R146).  The ISA's StatusFlags record
is no part of the codec (R19), so no instruction of this model writes a condition flag. -/

namespace Sys2Proof.Machine

/-- `builder_mismatch(builder_sel, op) = (builder_sel != op[11:10])` (R117). -/
def builderMismatch (builderSel : Tag) (op : Opcode) : Bool :=
  builderSel != op.extractLsb' 10 2

/-- `operand_overflow(build_r, rd, rn, rm)` (R118). -/
def overflowR (rd rn rm : RegIn) : Bool :=
  decide (32 ≤ rd.toNat) || decide (32 ≤ rn.toNat) || decide (32 ≤ rm.toNat)

/-- `operand_overflow(build_i, rd, rn, imm)` (R118). -/
def overflowI (rd rn : RegIn) (imm : ValIn) : Bool :=
  decide (32 ≤ rd.toNat) || decide (32 ≤ rn.toNat) || decide (2 ^ 34 ≤ imm.toNat)

/-- `operand_overflow(build_b, offset)` (R118). -/
def overflowB (offset : ValIn) : Bool := decide (2 ^ 48 ≤ offset.toNat)

/-- `operand_overflow(build_m, rd, rn, offset)` (R118). -/
def overflowM (rd rn : RegIn) (offset : ValIn) : Bool :=
  decide (32 ≤ rd.toNat) || decide (32 ≤ rn.toNat) || decide (2 ^ 32 ≤ offset.toNat)

/-- `operand_overflow` of the builder in use, one term per operand that builder packs (R118). -/
def operandOverflow (x : EncoderIn) : Bool :=
  match formatOfTag x.builderSel with
  | .R => overflowR x.rd x.rn x.rm
  | .I => overflowI x.rd x.rn x.imm
  | .B => overflowB x.boffset
  | .M => overflowM x.rd x.rn x.moffset

end Sys2Proof.Machine
end

