-- ==== Sys2Proof/Machine/Router.lean ====
section
/-! DEFINITION. The sub-block `format_router` (R110 to R121): from an opcode to its builder, from a word to the
fields valid for its format, the masks of meaningful and ignored bits, and canonical words (R56, R61). -/

namespace Sys2Proof.Machine

/-- The valid-field set of a format (R110); the opcode is valid in every format. -/
def validFields : Format → List Field
  | .R => [.rd, .rn, .rm]
  | .I => [.rd, .rn, .immediate]
  | .B => [.branchOffset]
  | .M => [.rd, .rn, .memoryOffset]

/-- `meaningful_mask` of R110: the opcode and the valid fields of the format. -/
def meaningfulMask : Format → Word
  | .R => 0xFFFFFFE000000000#64
  | .I => 0xFFFFFC03FFFFFFFF#64
  | .B => 0xFFF0FFFFFFFFFFFF#64
  | .M => 0xFFFFFC00FFFFFFFF#64

/-- `ignored_mask` of R110 and R61. -/
def ignoredMask : Format → Word
  | .R => 0x0000001FFFFFFFFF#64
  | .I => 0x000003FC00000000#64
  | .B => 0x000F000000000000#64
  | .M => 0x000003FF00000000#64

/-- `meaningful_mask` of an R-type operation with a shifted-register operand (R110, second row). -/
def meaningfulMaskShifted : Word := 0xFFFFFFE3FC000000#64

/-- `ignored_mask` of an R-type operation with a shifted-register operand (R56, R110). -/
def ignoredMaskShifted : Word := 0x0000001C03FFFFFF#64

/-- A word is canonical when every bit outside its opcode and the valid fields of its format is zero (R61). -/
def canonical (w : Word) : Bool := w &&& ignoredMask (formatOfWord w) == 0#64

/-- `encode_routed(op, rd, rn, rm, imm, boffset, moffset)`: the builder the opcode's tag calls for (R111). -/
def encodeRouted (op : Opcode) (rd rn rm : RegIn) (imm boffset moffset : ValIn) : Word :=
  match formatTagOf op with
  | .R => buildR op rd rn rm
  | .I => buildI op rd rn imm
  | .B => buildB op boffset
  | .M => buildM op rd rn moffset

/-- `decode_routed(W)`: the variant that `W[63:62]` selects, with that format's valid fields (R113, R121). -/
def decodeRouted (w : Word) : Payload :=
  match formatOfTag (tagOf w) with
  | .R => .R (opcodeOf w) (rdOf w) (rnOf w) (rmOf w) (shiftTypeOf w) (shiftAmountOf w)
  | .I => .I (opcodeOf w) (rdOf w) (rnOf w) (immediateOf w)
  | .B => .B (opcodeOf w) (branchOffsetOf w)
  | .M => .M (opcodeOf w) (rdOf w) (rnOf w) (memoryOffsetOf w)

/-- The opcode a payload carries. -/
def Payload.opcode : Payload → Opcode
  | .R op _ _ _ _ _ => op
  | .I op _ _ _ => op
  | .B op _ => op
  | .M op _ _ _ => op

/-- The format a payload belongs to. -/
def Payload.format : Payload → Format
  | .R _ _ _ _ _ _ => .R
  | .I _ _ _ _ => .I
  | .B _ _ => .B
  | .M _ _ _ _ => .M

/-- Re-encoding a payload with the builder of its format; `build_r` takes no shift sub-field (R86, R116). -/
def reencode : Payload → Word
  | .R op rd rn rm _ _ => buildR op (rd.setWidth 8) (rn.setWidth 8) (rm.setWidth 8)
  | .I op rd rn imm => buildI op (rd.setWidth 8) (rn.setWidth 8) (imm.setWidth 64)
  | .B op off => buildB op (off.setWidth 64)
  | .M op rd rn off => buildM op (rd.setWidth 8) (rn.setWidth 8) (off.setWidth 64)

/-- The decode face of the router: opcode, format, payload and mask (R15, R113). -/
def routeDecode (w : Word) : RoutedOut :=
  { opcode := opcodeOf w
    format := formatOfWord w
    payload := decodeRouted w
    meaningfulMask := meaningfulMask (formatOfWord w) }

/-- Everything the encoder and the encode face of the router drive from their inputs (R12, R15). -/
def driveEncoder (x : EncoderIn) : EncoderOut :=
  { word := buildSelected x
    routedWord := encodeRouted x.op x.rd x.rn x.rm x.imm x.boffset x.moffset
    builderMismatch := builderMismatch x.builderSel x.op
    operandOverflow := operandOverflow x }

/-- The inputs `encode_routed` gives the encoder: `builder_sel` is the opcode's tag, so the builder matches by
construction (R111; log entry 8). -/
def routedInputs (op : Opcode) (rd rn rm : RegIn) (imm boffset moffset : ValIn) : EncoderIn :=
  { builderSel := formatNumber (formatTagOf op)
    op := op, rd := rd, rn := rn, rm := rm, imm := imm, boffset := boffset, moffset := moffset }

/-- An operation whose variant carries its format, with that format's operand record (R112, R120). -/
inductive TypedOperation where
  | R (n : OperationNumber) (rd rn rm : RegIn)
  | I (n : OperationNumber) (rd rn : RegIn) (imm : ValIn)
  | B (n : OperationNumber) (offset : ValIn)
  | M (n : OperationNumber) (rd rn : RegIn) (offset : ValIn)
  deriving DecidableEq, Repr

/-- The opcode of a typed operation: its variant's tag over its operation number (R70, R120). -/
def TypedOperation.opcode : TypedOperation → Opcode
  | .R n _ _ _ => makeOpcode 0b00#2 n
  | .I n _ _ _ => makeOpcode 0b01#2 n
  | .B n _ => makeOpcode 0b10#2 n
  | .M n _ _ _ => makeOpcode 0b11#2 n

/-- The word of a typed operation, built by its own variant's builder (R120). -/
def TypedOperation.encode : TypedOperation → Word
  | .R n rd rn rm => buildR (makeOpcode 0b00#2 n) rd rn rm
  | .I n rd rn imm => buildI (makeOpcode 0b01#2 n) rd rn imm
  | .B n off => buildB (makeOpcode 0b10#2 n) off
  | .M n rd rn off => buildM (makeOpcode 0b11#2 n) rd rn off

end Sys2Proof.Machine
end

