-- ==== Sys2Proof/WellFormed.lean ====
section
/-! DEFINITION. Well-formedness of the build-time parameters (R6, R164) and of an instruction: a generic row of
the table never spells a named operation, whose words belong to that operation's own row (R129 to R131). -/

namespace Sys2Proof

/-- `OPC_ADD_REG`, `OPC_B` and `OPC_LDR` carry the tags `00`, `10` and `11` (R6). -/
def Params.tagsAgree (p : Params) : Bool :=
  p.opcAddReg.extractLsb' 10 2 == 0b00#2 && p.opcB.extractLsb' 10 2 == 0b10#2
    && p.opcLdr.extractLsb' 10 2 == 0b11#2

/-- No two distinct defined operations share an opcode (R54, R164). -/
def Params.opcodesDistinct (p : Params) : Bool :=
  decide (p.operationTable.map Operation.opcode).Nodup

/-- The condition R164 lays on whoever defines the parameters; the codec never checks it at run time. -/
def Params.wf (p : Params) : Bool := p.tagsAgree && p.opcodesDistinct

/-- An instruction is well-formed when its word belongs to its own row of the table: a generic R-, B- or M-type
row does not carry the opcode of ADD_REG, B or LDR. -/
def Instr.wf (p : Params) : Instr → Bool
  | .rFormat n _ _ _ _ _ _ _ => decide ((0b00#2 ++ n : Opcode) ≠ p.opcAddReg)
  | .iFormat _ _ _ _ _ => true
  | .bFormat n _ _ => decide ((0b10#2 ++ n : Opcode) ≠ p.opcB)
  | .mFormat n _ _ _ _ => decide ((0b11#2 ++ n : Opcode) ≠ p.opcLdr)
  | .addReg _ _ _ _ _ _ _ => true
  | .b _ _ => true
  | .ldr _ _ _ _ => true

end Sys2Proof
end

