-- ==== Sys2Proof/Machine/Consumer.lean ====
section
/-! DEFINITION. What the spec gives the codec's surroundings, all outside the codec and read by no step: the
sign extension a consumer must do itself (R103, R161), the lookup of a known operation (R141, R163), the
execution contract of register 0 (R17, R162), the fields a consumer may read (R160), the contracts of a producer
(R158, R159), and the OPEN consumer-side parameters, each an argument (R6). -/

namespace Sys2Proof.Machine

/-- `sext_N(v)`: the two's-complement reading of a field of width `n` (`00_scope.md` section 4). -/
def sext {n : Nat} (v : BitVec n) : Int :=
  if v.toNat < 2 ^ (n - 1) then (v.toNat : Int) else (v.toNat : Int) - 2 ^ n

/-- `sext_N_to_64(v)`: that integer reduced modulo 2^64. -/
def sextTo64 {n : Nat} (v : BitVec n) : BitVec 64 := BitVec.ofInt 64 (sext v)

/-- The displacement of a B-type word in units of one 64-bit instruction word (R127, R161).  The base it is
added to is not in the spec, so no target is computed (R20; `93_implementation_defined.md` U13). -/
def branchDisplacement (w : Word) : Int := sext (branchOffsetOf w)

/-- The immediate of an I-type word as `IMM_SIGNED(op)` says to read it (R103, R161). -/
def immediateValue (c : ConsumerParams) (w : Word) : Int :=
  if opcodeOf w ∈ c.signedImmediates then sext (immediateOf w) else ((immediateOf w).toNat : Int)

/-- The memory offset of an M-type word as `MOFF_SIGNED` says to read it, at 32 bits if signed (R103). -/
def memoryOffsetValue (c : ConsumerParams) (w : Word) : Int :=
  if c.memoryOffsetSigned then sext (memoryOffsetOf w) else ((memoryOffsetOf w).toNat : Int)

/-- `is_known(opcode) = (opcode in OPERATION_TABLE)` (R141). -/
def isKnown (p : Params) (op : Opcode) : Bool := (p.operationTable.map Operation.opcode).contains op

/-- The defined operation of an opcode; `none` is the illegal-instruction condition that an execution engine,
not the codec, must take an absent opcode for (R141, R163).  Where the table breaks R164 and two operations share the
opcode, the answer is the first in the order of `Params.operationTable`: DESIGN CHOICE, log entry 20. -/
def lookupOperation (p : Params) (op : Opcode) : Option Operation :=
  p.operationTable.find? (fun o => o.opcode == op)

/-- Whether the shift sub-fields of a word mean anything: R-type, and an operation with a shifted-register
operand (R50). -/
def shiftFieldsMeaningful (c : ConsumerParams) (w : Word) : Bool :=
  isRType (opcodeOf w) && c.shiftedOperations.contains (opcodeOf w)

/-- The name of a word's shift type under `SHIFT_TYPE_NAMES` (R18, R100). -/
def shiftTypeName (c : ConsumerParams) (w : Word) : Option String := c.shiftTypeNames.lookup (shiftTypeOf w)

/-- The name of a Condition value under `CONDITION_NAMES`; the layout gives it no word bits (R18). -/
def conditionName (c : ConsumerParams) (v : Nat) : Option String := c.conditionNames.lookup v

/-- The name of a MemoryMode value under `MEMORY_MODE_NAMES`; `mode` is not said to carry it (R18, R51). -/
def memoryModeName (c : ConsumerParams) (v : Nat) : Option String := c.memoryModeNames.lookup v

/-- The meaning `MODE_SEMANTICS` gives the `mode` field of a word, raw bits to the codec (R51, R95).  In a B-type
word those bits are offset bits, so there is no `mode` to read.  `none` is the answer wherever the parameter assigns
nothing: whoever needs an addressing mode there must refuse, not read one out of the bits
(`93_implementation_defined.md` U3; log entry 15). -/
def modeMeaning (c : ConsumerParams) (w : Word) : Option String :=
  if isBType (opcodeOf w) then none else c.modeSemantics.lookup (opcodeOf w, modeOf w)

/-- ShiftType, Condition and MemoryMode are closed enumerations of compile-time constants (R18): each value
names at most one member, and a value of `mode` has at most one meaning under one opcode.  Where it does not hold,
the lookups by value answer the first entry of the list: DESIGN CHOICE, log entry 20. -/
def ConsumerParams.wf (c : ConsumerParams) : Bool :=
  decide (c.shiftTypeNames.map Prod.fst).Nodup && decide (c.conditionNames.map Prod.fst).Nodup
    && decide (c.memoryModeNames.map Prod.fst).Nodup && decide (c.modeSemantics.map Prod.fst).Nodup

/-- The fields a consumer may read of a word: the opcode and its parts, the format's valid fields, and the shift
sub-fields of an operation that takes a shifted-register operand (R50, R110, R160). -/
def mayRead (c : ConsumerParams) (w : Word) (f : Field) : Bool :=
  [Field.opcode, Field.formatTag, Field.operationNumber].contains f
    || (validFields (formatOfWord w)).contains f
    || (shiftFieldsMeaningful c w && [Field.shiftType, Field.shiftAmount].contains f)

/-- Reading a register of an execution engine: register 0 reads as zero (R17, R162).  The register width `k`
is not in the spec (R21) and stays an argument. -/
def readRegister {k : Nat} (file : Vector (BitVec k) 32) (r : RegNum) : BitVec k :=
  if r = 0#5 then 0#k else file[r.toNat]'(r.isLt)

/-- Writing a register of an execution engine: a write to register 0 is dropped (R17, R162; log entry 12). -/
def writeRegister {k : Nat} (file : Vector (BitVec k) 32) (r : RegNum) (v : BitVec k) : Vector (BitVec k) 32 :=
  if r = 0#5 then file else file.set r.toNat v r.isLt

/-- The producer's two contracts for one use of a builder: the builder matches the opcode and every operand it
packs is within its field (R142, R158, R159). -/
def producerContract (x : EncoderIn) : Bool :=
  !builderMismatch x.builderSel x.op && !operandOverflow x

/-- The word a producer forms when an R-type operation takes a shifted-register operand, given by the spec as
arithmetic and not as a builder of the codec (`91_not_in_source.md` N14; log entry 18). -/
def withShiftFields (w : Word) (shiftType : BitVec 2) (shiftAmount : BitVec 6) : Word :=
  w ||| packAt shiftType 32 ||| packAt shiftAmount 26

end Sys2Proof.Machine
end

