-- ==== Sys2Proof/Decode.lean ====
section
/-! DEFINITION. From a 64-bit word to the row of spec/opcode_table.json it belongs to and back.  Every word
decodes (R57, R90): a word whose opcode is `OPC_ADD_REG`, `OPC_B` or `OPC_LDR` with the tag of that operation is
that operation's row, every other word is the generic row of its format (R121: the tag decides the shape; log entry
5).  A
loader's byte string decodes in its byte order or is rejected by name. -/

namespace Sys2Proof

open Sys2Proof.Machine

/-- The instruction of an R-type word: the bits of R125's pattern. -/
def decodeR (p : Params) (w : Word) : Instr :=
  if w.extractLsb' 52 12 = p.opcAddReg then
    .addReg (w.extractLsb' 47 5) (w.extractLsb' 42 5) (w.extractLsb' 37 5) (w.extractLsb' 34 3)
      (w.extractLsb' 32 2) (w.extractLsb' 26 6) (w.extractLsb' 0 26)
  else
    .rFormat (w.extractLsb' 52 10) (w.extractLsb' 47 5) (w.extractLsb' 42 5) (w.extractLsb' 37 5)
      (w.extractLsb' 34 3) (w.extractLsb' 32 2) (w.extractLsb' 26 6) (w.extractLsb' 0 26)

/-- The instruction of an I-type word: the bits of R126's pattern. -/
def decodeI (w : Word) : Instr :=
  .iFormat (w.extractLsb' 52 10) (w.extractLsb' 47 5) (w.extractLsb' 42 5) (w.extractLsb' 34 8)
    (w.extractLsb' 0 34)

/-- The instruction of a B-type word: the bits of R127's pattern. -/
def decodeB (p : Params) (w : Word) : Instr :=
  if w.extractLsb' 52 12 = p.opcB then .b (w.extractLsb' 48 4) (w.extractLsb' 0 48)
  else .bFormat (w.extractLsb' 52 10) (w.extractLsb' 48 4) (w.extractLsb' 0 48)

/-- The instruction of an M-type word: the bits of R128's pattern. -/
def decodeM (p : Params) (w : Word) : Instr :=
  if w.extractLsb' 52 12 = p.opcLdr then
    .ldr (w.extractLsb' 47 5) (w.extractLsb' 42 5) (w.extractLsb' 32 10) (w.extractLsb' 0 32)
  else
    .mFormat (w.extractLsb' 52 10) (w.extractLsb' 47 5) (w.extractLsb' 42 5) (w.extractLsb' 32 10)
      (w.extractLsb' 0 32)

/-- The row of the opcode table a word belongs to, with every bit of the word (R57, R90). -/
def decodeWord (p : Params) (w : Word) : Instr :=
  match formatOfTag (w.extractLsb' 62 2) with
  | .R => decodeR p w
  | .I => decodeI w
  | .B => decodeB p w
  | .M => decodeM p w

/-- The word of an instruction, by the patterns of R125 to R131. -/
def encode (p : Params) : Instr → Word
  | .rFormat n rd rn rm mode st sa rest => rWord (0b00#2 ++ n) rd rn rm mode st sa rest
  | .iFormat n rd rn ignored imm => iWord (0b01#2 ++ n) rd rn ignored imm
  | .bFormat n ignored off => bWord (0b10#2 ++ n) ignored off
  | .mFormat n rd rn ignored off => mWord (0b11#2 ++ n) rd rn ignored off
  | .addReg rd rn rm mode st sa rest => rWord p.opcAddReg rd rn rm mode st sa rest
  | .b ignored off => bWord p.opcB ignored off
  | .ldr rd rn ignored off => mWord p.opcLdr rd rn ignored off

/-- The decoder's answer for a row of spec/opcode_table.json, under the default opcodes the table prints.  The
codec is handed whole 64-bit words (R34), so the bits are the word. -/
def decodeTableWord (nbits w : Nat) : Option Instr :=
  some (decodeWord Config.defaultParams (BitVec.ofNat 64 (w % 2 ^ nbits)))

/-- Why a loader's bytes give no instruction word. -/
inductive ByteReject where
  /-- Fewer than eight bytes are left: every instruction is exactly one 64-bit word (R40). -/
  | incompleteWord
  deriving DecidableEq, Repr

/-- The word eight stored bytes hold, the first at the lowest address: each byte at the position the loader's byte
order gives it (R32). -/
def wordOfBytes (order : ByteOrder) (bytes : Vector Byte 8) : Word :=
  (List.finRange 8).foldl (fun w k => w ||| packAt bytes[k] (8 * order.byteAt[k].val)) 0

/-- The eight bytes of a word from the lowest address up, in the loader's byte order (R32). -/
def bytesOfWord (order : ByteOrder) (w : Word) : List Byte :=
  order.byteAt.toList.map fun i => w.extractLsb' (8 * i.val) 8

/-- Decoding a loader's byte string, total on any bytes: one instruction and the bytes after it, or a rejection
by name.  The byte order is the OPEN parameter `WORD_BYTE_ORDER` (R32), an argument. -/
def decodeBytes (p : Params) (order : ByteOrder) : List Byte → Except ByteReject (Instr × List Byte)
  | b0 :: b1 :: b2 :: b3 :: b4 :: b5 :: b6 :: b7 :: rest =>
    .ok (decodeWord p (wordOfBytes order #v[b0, b1, b2, b3, b4, b5, b6, b7]), rest)
  | _ => .error .incompleteWord

/-- The finite sequence of words a consumer finds in its storage (R31), in the order its `WORD_BYTE_ORDER` says.
DESIGN CHOICE, log entry 14: R31 leaves the layout of words in a file or a memory outside the codec, and here they
stand back to back, with no gap and no padding, and a rest shorter than a word rejects the whole (safe: no step and
no claim about the codec reads a storage). -/
def wordsOfStorage (c : ConsumerParams) : List Byte → Except ByteReject (List Word)
  | [] => .ok []
  | b0 :: b1 :: b2 :: b3 :: b4 :: b5 :: b6 :: b7 :: rest =>
    match wordsOfStorage c rest with
    | .ok ws => .ok (wordOfBytes c.wordByteOrder #v[b0, b1, b2, b3, b4, b5, b6, b7] :: ws)
    | .error e => .error e
  | _ => .error .incompleteWord

end Sys2Proof
end

