-- ==== Sys2Proof/Machine/State.lean ====
section
/-! DEFINITION. The state of the model, and the two empty-handed reason types.  THE CODEC HOLDS NO STATE (R10,
R22 to R25): what stands here is the value on every port of the four sub-blocks (R12 to R15), the invocations
its surroundings have yet to make (R34, R167), and the build-time parameters (R6, R157). -/

namespace Sys2Proof.Machine

/-- Reasons a step can stop with a fault: NONE.  No function of the codec has a fault output or a trap (R140),
so the type has no constructor and no step of the model can end in a fault (safe: the spec allows none). -/
inductive Fault where
  deriving DecidableEq, Repr

/-- Reasons a step can be refused. -/
inductive Refusal where
  /-- Raised by an arm of `exec` for an instruction without a meaning.  No arm raises it: every row of the
  table has its meaning.  Safe: a refusal proves nothing about the hardware. -/
  | notModelled (mnemonic : String)
  deriving DecidableEq, Repr

/-- The ports, the invocations to come and the parameters.  No field is an architectural register: see
INVENTORY.md, State, and log entry 1. -/
structure State where
  /-- Build-time parameters (R6, R157); no step changes them (R22). -/
  params : Params
  /-- Invocations the surroundings have yet to make, oldest first: the host interface, no queue of the codec. -/
  pending : List Invocation
  /-- `word`, input of the decoder and of the router's decode face (R13, R15). -/
  word : Word
  /-- Outputs of the decoder (R13). -/
  accessors : AccessorRecord
  /-- Outputs of the router's decode face (R15). -/
  routed : RoutedOut
  /-- `opcode`, input of the classifier (R14). -/
  classifierIn : Opcode
  /-- Outputs of the classifier for `classifierIn` (R14). -/
  classifierOut : ClassifierOut
  /-- `format_tag`, first input of `make_opcode` (R14). -/
  composeTag : Tag
  /-- `operation_number`, second input of `make_opcode` (R14). -/
  composeNumber : OperationNumber
  /-- Output of `make_opcode` (R14, R70). -/
  composed : Opcode
  /-- Inputs of the encoder and of the router's encode face (R12, R15). -/
  encoderIn : EncoderIn
  /-- Outputs of the encoder and of the router's encode face (R12, R15). -/
  encoderOut : EncoderOut
  deriving DecidableEq, Repr

/-- Input ports with every bit 0: DESIGN CHOICE, log entry 3 (the spec has no reset and presents no input). -/
def zeroEncoderIn : EncoderIn :=
  { builderSel := 0, op := 0, rd := 0, rn := 0, rm := 0, imm := 0, boffset := 0, moffset := 0 }

/-- After reset: every output is the function of the current inputs, as at any other moment (R25, R155); the
inputs are zero (log entry 3), no invocation is pending (log entry 4), and the parameters are the defaults of
R6 (log entry 2). -/
def State.reset : State :=
  { params := Config.defaultParams
    pending := []
    word := 0
    accessors := decodeAll 0
    routed := routeDecode 0
    classifierIn := 0
    classifierOut := classify 0
    composeTag := 0
    composeNumber := 0
    composed := makeOpcode 0 0
    encoderIn := zeroEncoderIn
    encoderOut := driveEncoder zeroEncoderIn }

end Sys2Proof.Machine
end

