-- ==== Sys2Proof/Machine/Ops.lean ====
section
/-! DEFINITION. The named operations over the ports: presenting inputs to a sub-block, whose outputs follow with
no clock edge in between (R156, R166), taking the next invocation, and reading what an invocation returned.
There is no operation that takes or returns from an exception: the codec has neither (R140, R147, R148), and
none that reads or writes memory (R30). -/

namespace Sys2Proof.Machine

/-- A word on the `word` port: the decoder drives every accessor, and along the consumer's path of R113 the
classifier sees the word's opcode and the router drives its decode face (log entry 9). -/
def State.presentWord (s : State) (w : Word) : State :=
  { s with
    word := w
    accessors := decodeAll w
    routed := routeDecode w
    classifierIn := opcodeOf w
    classifierOut := classify (opcodeOf w) }

/-- An opcode on the classifier's port (R14). -/
def State.presentOpcode (s : State) (op : Opcode) : State :=
  { s with classifierIn := op, classifierOut := classify op }

/-- A tag and an operation number on `make_opcode`'s ports (R14, R70). -/
def State.presentParts (s : State) (tag : Tag) (n : OperationNumber) : State :=
  { s with composeTag := tag, composeNumber := n, composed := makeOpcode tag n }

/-- Operands on the encoder's ports (R12, R15).  The router selects its builder by `format_tag_of(op)`; whether that
moves the classifier's own ports the spec does not say, and here they keep what was last presented to them: DESIGN
CHOICE, log entry 19. -/
def State.presentOperands (s : State) (x : EncoderIn) : State :=
  { s with encoderIn := x, encoderOut := driveEncoder x }

/-- What an invocation other than the decoding of a word does; a word goes through `exec`, which ends in the
same operation `State.presentWord`. -/
def State.serve (s : State) : Invocation → State
  | .decode w => s.presentWord w
  | .classify op => s.presentOpcode op
  | .compose tag n => s.presentParts tag n
  | .build x => s.presentOperands x
  | .route op rd rn rm imm boffset moffset =>
    s.presentOperands (routedInputs op rd rn rm imm boffset moffset)

/-- The next invocation and the state with it taken off the list (R31, R34: words are handed over one at a
time). -/
def State.takeInvocation (s : State) : Option (Invocation × State) :=
  match s.pending with
  | [] => none
  | inv :: rest => some (inv, { s with pending := rest })

/-- The instruction word a caller numbers as spec/opcode_table.json does, put first among the invocations. -/
def State.offerWord (s : State) (nbits w : Nat) : State :=
  { s with pending := .decode (BitVec.ofNat 64 (w % 2 ^ nbits)) :: s.pending }

/-- A program, a finite sequence of words, put before the invocations still to make (R31; log entry 4). -/
def State.loadProgram (s : State) (ws : List Word) : State :=
  { s with pending := ws.map Invocation.decode ++ s.pending }

/-- What one invocation returns: the outputs of the sub-blocks it uses (R10, R36). -/
inductive Result where
  | decoded (accessors : AccessorRecord) (routed : RoutedOut) (classifier : ClassifierOut)
  | classified (classifier : ClassifierOut)
  | composed (opcode : Opcode)
  | encoded (outputs : EncoderOut)
  deriving DecidableEq, Repr

/-- The result an invocation has by itself: a function of its inputs and of nothing else (R10, R36). -/
def resultOf : Invocation → Result
  | .decode w => .decoded (decodeAll w) (routeDecode w) (classify (opcodeOf w))
  | .classify op => .classified (classify op)
  | .compose tag n => .composed (makeOpcode tag n)
  | .build x => .encoded (driveEncoder x)
  | .route op rd rn rm imm boffset moffset =>
    .encoded (driveEncoder (routedInputs op rd rn rm imm boffset moffset))

/-- The result of an invocation as it stands on the output ports of a state. -/
def State.observe (s : State) : Invocation → Result
  | .decode _ => .decoded s.accessors s.routed s.classifierOut
  | .classify _ => .classified s.classifierOut
  | .compose _ _ => .composed s.composed
  | .build _ => .encoded s.encoderOut
  | .route _ _ _ _ _ _ _ => .encoded s.encoderOut

end Sys2Proof.Machine
end

