-- ==== Sys2Proof/Machine/FormatWords.lean ====
section
/-! DEFINITION. The meanings of the four generic rows R_FORMAT, I_FORMAT, B_FORMAT and M_FORMAT (R125 to R128).
An instruction word has no effect on any machine state of the ISA (R133): what the codec does with it is to
drive its decode-side ports. -/

namespace Sys2Proof.Machine

/-- R_FORMAT (R125). -/
def execRFormat (n : OperationNumber) (rd rn rm : RegNum) (mode : BitVec 3) (st : BitVec 2) (sa : BitVec 6)
    (rest : BitVec 26) (s : State) : Host.Outcome State Fault Refusal :=
  .next (s.presentWord (rWord (0b00#2 ++ n) rd rn rm mode st sa rest))

/-- I_FORMAT (R126). -/
def execIFormat (n : OperationNumber) (rd rn : RegNum) (ignored : BitVec 8) (imm : BitVec 34) (s : State) :
    Host.Outcome State Fault Refusal :=
  .next (s.presentWord (iWord (0b01#2 ++ n) rd rn ignored imm))

/-- B_FORMAT (R127). -/
def execBFormat (n : OperationNumber) (ignored : BitVec 4) (off : BitVec 48) (s : State) :
    Host.Outcome State Fault Refusal :=
  .next (s.presentWord (bWord (0b10#2 ++ n) ignored off))

/-- M_FORMAT (R128). -/
def execMFormat (n : OperationNumber) (rd rn : RegNum) (ignored : BitVec 10) (off : BitVec 32) (s : State) :
    Host.Outcome State Fault Refusal :=
  .next (s.presentWord (mWord (0b11#2 ++ n) rd rn ignored off))

end Sys2Proof.Machine
end

