-- ==== Sys2Proof/Machine/NamedWords.lean ====
section
/-! DEFINITION. The meanings of the three named operations ADD_REG, B and LDR (R129 to R131).  Their opcodes are
the OPEN parameters of the state (R6); what they compute is in no rule (R133; log entry 17), so the codec's handling of the
word is all there is. -/

namespace Sys2Proof.Machine

/-- ADD_REG (R129). -/
def execAddReg (rd rn rm : RegNum) (mode : BitVec 3) (st : BitVec 2) (sa : BitVec 6) (rest : BitVec 26)
    (s : State) : Host.Outcome State Fault Refusal :=
  .next (s.presentWord (rWord s.params.opcAddReg rd rn rm mode st sa rest))

/-- B (R130). -/
def execB (ignored : BitVec 4) (off : BitVec 48) (s : State) : Host.Outcome State Fault Refusal :=
  .next (s.presentWord (bWord s.params.opcB ignored off))

/-- LDR (R131). -/
def execLdr (rd rn : RegNum) (ignored : BitVec 10) (off : BitVec 32) (s : State) :
    Host.Outcome State Fault Refusal :=
  .next (s.presentWord (mWord s.params.opcLdr rd rn ignored off))

end Sys2Proof.Machine
end

