-- ==== Sys2Proof/Machine/Dispatch.lean ====
section
/-! DEFINITION. One arm per constructor of Instr, each a direct call of its meaning. -/

namespace Sys2Proof.Machine

def exec (i : Instr) (s : State) : Host.Outcome State Fault Refusal :=
  match i with
  | .rFormat n rd rn rm mode st sa rest => Sys2Proof.Machine.execRFormat n rd rn rm mode st sa rest s
  | .iFormat n rd rn ignored imm => Sys2Proof.Machine.execIFormat n rd rn ignored imm s
  | .bFormat n ignored off => Sys2Proof.Machine.execBFormat n ignored off s
  | .mFormat n rd rn ignored off => Sys2Proof.Machine.execMFormat n rd rn ignored off s
  | .addReg rd rn rm mode st sa rest => Sys2Proof.Machine.execAddReg rd rn rm mode st sa rest s
  | .b ignored off => Sys2Proof.Machine.execB ignored off s
  | .ldr rd rn ignored off => Sys2Proof.Machine.execLdr rd rn ignored off s

end Sys2Proof.Machine
end

