-- ==== Sys2Proof/Machine/Step.lean ====
section
/-! DEFINITION. One step: the surroundings make their next invocation.  A word presented to the decoder is
decoded and run by `exec`; any other invocation drives its own ports.  With no invocation pending nothing
happens: outputs stay the functions of the current inputs (R25). -/

namespace Sys2Proof.Machine

/-- One invocation of the codec, always ending in a next state (R140). -/
def step (s : State) : Host.Outcome State Fault Refusal :=
  match s.takeInvocation with
  | none => .next s
  | some (.decode w, t) => exec (decodeWord t.params w) t
  | some (inv, t) => .next (t.serve inv)

/-- The state whose very next step runs the instruction with these bits. -/
def State.withFetchWord (s : State) (nbits w : Nat) : State := s.offerWord nbits w

end Sys2Proof.Machine
end

