-- ==== Sys2Proof/Safety.lean ====
section
/-! DEFINITION. What counts as a right run, in the terms the statements use: outputs that follow their inputs
(R10, R25), a run that never stops (R140, R167), and a producer's word a consumer can rely on (R158 to R160). -/

namespace Sys2Proof.Machine

/-- Every output port holds the function of the input ports of its own sub-block (R10, R25, R155). -/
def State.Coherent (s : State) : Prop :=
  s.accessors = decodeAll s.word ∧ s.routed = routeDecode s.word
    ∧ s.classifierOut = classify s.classifierIn
    ∧ s.composed = makeOpcode s.composeTag s.composeNumber
    ∧ s.encoderOut = driveEncoder s.encoderIn

/-- The laws a consumer and a validation layer may rely on at the output ports alone, whatever invocations came
before: exactly one format predicate holds and it names the tag (R76); the accessors are the word, with nothing
lost (R104); the routed payload is of the routed format, that of the word (R113); and when the mismatch bit is 0
the encoder's word is the router's and is canonical (R111, R117).  That the two word ports are driven from one record
of inputs is the model's choice (log entry 8); that built words are canonical rests on R86 (log entry 7). -/
def State.PortLaws (s : State) : Prop :=
  ([s.classifierOut.isRType, s.classifierOut.isIType, s.classifierOut.isBType, s.classifierOut.isMType].count
      true = 1
    ∧ s.classifierOut.isRType = decide (s.classifierOut.formatTag = 0b00#2)
    ∧ s.classifierOut.isIType = decide (s.classifierOut.formatTag = 0b01#2)
    ∧ s.classifierOut.isBType = decide (s.classifierOut.formatTag = 0b10#2)
    ∧ s.classifierOut.isMType = decide (s.classifierOut.formatTag = 0b11#2)
    ∧ makeOpcode s.classifierOut.formatTag s.classifierOut.operationNumber = s.classifierIn)
  ∧ reassemble s.accessors = s.word
  ∧ (s.routed.payload.format = s.routed.format ∧ s.routed.payload.opcode = s.routed.opcode
    ∧ s.routed.opcode = s.accessors.opcode ∧ s.routed.format = formatOfWord s.word
    ∧ reencode s.routed.payload = s.word &&& s.routed.meaningfulMask)
  ∧ s.composed.extractLsb' 10 2 = s.composeTag
  ∧ (s.encoderOut.builderMismatch = false →
      s.encoderOut.word = s.encoderOut.routedWord ∧ canonical s.encoderOut.word = true)
  ∧ opcodeOf s.encoderOut.word = s.encoderIn.op
  ∧ opcodeOf s.encoderOut.routedWord = s.encoderIn.op ∧ canonical s.encoderOut.routedWord = true

end Sys2Proof.Machine
end

