-- ==== Sys2Proof/Certificates/Slice0/Obligations.lean ====
section
/-! DEFINITION. The statements of this row for the provers.  They follow the numbered rules of spec/ file by
file: the instruction words and the step, the invariants of the ports, the classifier, the encoder, the decoder,
the router, and what the spec asks of the codec's surroundings. -/

open Sys2Proof Sys2Proof.Machine

/-! ### Instruction words -/

/-- R125 to R131: decoding the word of a well-formed instruction gives the instruction back, every operand and
every ignored bit at every value, for every choice of the OPEN opcodes that R6 and R164 allow. -/
def Obligations.DecodeOfEncodeIsTheInstruction : Prop :=
  ∀ (p : Params) (i : Instr), p.wf = true → i.wf p = true → decodeWord p (encode p i) = i

/-- R57, R90, R121: every 64-bit word is the word of a well-formed instruction of its own format, namely of the
one it decodes to, whatever the parameters; and of no other, when the parameters are well-formed. -/
def Obligations.EveryWordIsTheWordOfOneInstruction : Prop :=
  (∀ (p : Params) (w : Word),
    (decodeWord p w).wf p = true ∧ encode p (decodeWord p w) = w ∧ (decodeWord p w).format = formatOfWord w)
  ∧ ∀ (p : Params) (w : Word) (i : Instr),
    p.wf = true → i.wf p = true → encode p i = w → decodeWord p w = i

/-- R129 to R131 with R6: a word is in the row of ADD_REG, B or LDR exactly when its opcode field is that OPEN
opcode. -/
def Obligations.NamedRowsAreTheirOpcodes : Prop :=
  ∀ (p : Params) (w : Word), p.wf = true →
    ((∃ rd rn rm mode st sa rest, decodeWord p w = .addReg rd rn rm mode st sa rest) ↔
      opcodeOf w = p.opcAddReg)
    ∧ ((∃ ignored off, decodeWord p w = .b ignored off) ↔ opcodeOf w = p.opcB)
    ∧ ((∃ rd rn ignored off, decodeWord p w = .ldr rd rn ignored off) ↔ opcodeOf w = p.opcLdr)

/-- Words written out from the patterns of R125 to R131 decode to their instructions under the default opcodes
(R6, decision D8; log entry 2). -/
def Obligations.WrittenOutWordsDecode : Prop :=
  decodeTableWord 64 0x2000886230000000 = some (.addReg 1 2 3 0 2 12 0)
  ∧ decodeTableWord 64 0x0123456789ABCDEF = some (.rFormat 0x012 6 17 11 1 3 34 0x1ABCDEF)
  ∧ decodeTableWord 64 0x5A588C0123456789 = some (.iFormat 0x1A5 17 3 0 0x123456789)
  ∧ decodeTableWord 64 0x8005000000000007 = some (.b 5 7)
  ∧ decodeTableWord 64 0xBFF0123456789ABC = some (.bFormat 0x3FF 0 0x123456789ABC)
  ∧ decodeTableWord 64 0xD004FC0000001000 = some (.ldr 9 31 0 0x1000)
  ∧ decodeTableWord 64 0xFEDCBA9876543210 = some (.mFormat 0x3ED 25 14 0x298 0x76543210)

/-! ### One step -/

/-- A STEP RUNS THE DECODED INSTRUCTION: when the next invocation presents a word to the decoder, the step is
`exec` of the instruction the word decodes to, with that invocation taken off the list and nothing else done. -/
def Obligations.StepRunsTheDecodedInstruction : Prop :=
  ∀ (s : State) (w : Word) (rest : List Invocation) (i : Instr),
    s.pending = .decode w :: rest → decodeWord s.params w = i →
    step s = exec i { s with pending := rest }

/-- What the step does with the other invocations and with none: R14, R70, R12 and R15 for the ports that move.
The model's choices: a step with no invocation pending leaves the state as it is (log entry 4), a route invocation
presents the opcode's tag as `builder_sel` (log entry 8), and an encode-side invocation moves no port of the
classifier (log entry 19), as no invocation moves a port that is not its own (log entry 1). -/
def Obligations.StepDrivesThePortsOfTheInvocation : Prop :=
  ∀ (s : State) (rest : List Invocation),
    (s.pending = [] → step s = .next s)
    ∧ (∀ op, s.pending = .classify op :: rest →
        step s = .next { s with
          pending := rest
          classifierIn := op
          classifierOut :=
            { formatTag := op.extractLsb' 10 2
              isRType := decide (op.toNat ≤ 0x3FF)
              isIType := decide (0x400 ≤ op.toNat ∧ op.toNat ≤ 0x7FF)
              isBType := decide (0x800 ≤ op.toNat ∧ op.toNat ≤ 0xBFF)
              isMType := decide (0xC00 ≤ op.toNat)
              operationNumber := op.extractLsb' 0 10 } })
    ∧ (∀ tag n, s.pending = .compose tag n :: rest →
        step s = .next { s with
          pending := rest, composeTag := tag, composeNumber := n, composed := tag ++ n })
    ∧ (∀ x, s.pending = .build x :: rest →
        step s = .next { s with pending := rest, encoderIn := x, encoderOut := driveEncoder x })
    ∧ (∀ op rd rn rm imm boffset moffset, s.pending = .route op rd rn rm imm boffset moffset :: rest →
        step s = .next { s with
          pending := rest
          encoderIn := ⟨op.extractLsb' 10 2, op, rd, rn, rm, imm, boffset, moffset⟩
          encoderOut := driveEncoder ⟨op.extractLsb' 10 2, op, rd, rn, rm, imm, boffset, moffset⟩ })

/-- The word a caller offers is the very next one the step runs (the host's way in; log entry 4). -/
def Obligations.OfferedWordRunsNext : Prop :=
  ∀ (s : State) (nbits w : Nat),
    step (s.withFetchWord nbits w) = exec (decodeWord s.params (BitVec.ofNat 64 (w % 2 ^ nbits))) s

/-! ### What each row of the table does: it answers a next state, and the state is this one

In all seven, that decoding a word also drives `classifierIn` and `classifierOut` is the model's choice (log entry
9), and that the ports of the other sub-blocks keep their values is too (log entries 1 and 9); the values on the
ports are the spec's. -/

/-- R_FORMAT (R125, R46): the decode-side ports carry the fields of the word, the routed payload is of variant R,
and every other field of the state is as before.  That the classifier's ports move with the word is the model's
choice (log entry 9). -/
def Obligations.RFormatWordDrivesTheDecodePorts : Prop :=
  ∀ (n : OperationNumber) (rd rn rm : RegNum) (mode : BitVec 3) (st : BitVec 2) (sa : BitVec 6)
    (rest : BitVec 26) (s : State),
    exec (.rFormat n rd rn rm mode st sa rest) s = .next { s with
      word := 0b00#2 ++ n ++ rd ++ rn ++ rm ++ mode ++ st ++ sa ++ rest
      accessors :=
        { opcode := 0b00#2 ++ n
          rd := rd, rn := rn, rm := rm, mode := mode
          extended := st ++ sa ++ rest
          immediate := st ++ sa ++ rest
          branchOffset := rd.extractLsb' 0 1 ++ rn ++ rm ++ mode ++ st ++ sa ++ rest
          memoryOffset := sa ++ rest
          shiftType := st, shiftAmount := sa }
      routed :=
        { opcode := 0b00#2 ++ n, format := .R, payload := .R (0b00#2 ++ n) rd rn rm st sa
          meaningfulMask := 0xFFFFFFE000000000 }
      classifierIn := 0b00#2 ++ n
      classifierOut := ⟨0b00, true, false, false, false, n⟩ }

/-- I_FORMAT (R126, R47).  That the classifier's ports move with the word is the model's choice (log entry 9). -/
def Obligations.IFormatWordDrivesTheDecodePorts : Prop :=
  ∀ (n : OperationNumber) (rd rn : RegNum) (ignored : BitVec 8) (imm : BitVec 34) (s : State),
    exec (.iFormat n rd rn ignored imm) s = .next { s with
      word := 0b01#2 ++ n ++ rd ++ rn ++ ignored ++ imm
      accessors :=
        { opcode := 0b01#2 ++ n
          rd := rd, rn := rn, rm := ignored.extractLsb' 3 5, mode := ignored.extractLsb' 0 3
          extended := imm
          immediate := imm
          branchOffset := rd.extractLsb' 0 1 ++ rn ++ ignored ++ imm
          memoryOffset := imm.extractLsb' 0 32
          shiftType := imm.extractLsb' 32 2, shiftAmount := imm.extractLsb' 26 6 }
      routed :=
        { opcode := 0b01#2 ++ n, format := .I, payload := .I (0b01#2 ++ n) rd rn imm
          meaningfulMask := 0xFFFFFC03FFFFFFFF }
      classifierIn := 0b01#2 ++ n
      classifierOut := ⟨0b01, false, true, false, false, n⟩ }

/-- B_FORMAT (R127, R48): the accessors of the register fields return offset bits and ignored bits.  That the
classifier's ports move with the word is the model's choice (log entry 9). -/
def Obligations.BFormatWordDrivesTheDecodePorts : Prop :=
  ∀ (n : OperationNumber) (ignored : BitVec 4) (off : BitVec 48) (s : State),
    exec (.bFormat n ignored off) s = .next { s with
      word := 0b10#2 ++ n ++ ignored ++ off
      accessors :=
        { opcode := 0b10#2 ++ n
          rd := ignored ++ off.extractLsb' 47 1
          rn := off.extractLsb' 42 5, rm := off.extractLsb' 37 5, mode := off.extractLsb' 34 3
          extended := off.extractLsb' 0 34
          immediate := off.extractLsb' 0 34
          branchOffset := off
          memoryOffset := off.extractLsb' 0 32
          shiftType := off.extractLsb' 32 2, shiftAmount := off.extractLsb' 26 6 }
      routed :=
        { opcode := 0b10#2 ++ n, format := .B, payload := .B (0b10#2 ++ n) off
          meaningfulMask := 0xFFF0FFFFFFFFFFFF }
      classifierIn := 0b10#2 ++ n
      classifierOut := ⟨0b10, false, false, true, false, n⟩ }

/-- M_FORMAT (R128, R49).  That the classifier's ports move with the word is the model's choice (log entry 9). -/
def Obligations.MFormatWordDrivesTheDecodePorts : Prop :=
  ∀ (n : OperationNumber) (rd rn : RegNum) (ignored : BitVec 10) (off : BitVec 32) (s : State),
    exec (.mFormat n rd rn ignored off) s = .next { s with
      word := 0b11#2 ++ n ++ rd ++ rn ++ ignored ++ off
      accessors :=
        { opcode := 0b11#2 ++ n
          rd := rd, rn := rn, rm := ignored.extractLsb' 5 5, mode := ignored.extractLsb' 2 3
          extended := ignored.extractLsb' 0 2 ++ off
          immediate := ignored.extractLsb' 0 2 ++ off
          branchOffset := rd.extractLsb' 0 1 ++ rn ++ ignored ++ off
          memoryOffset := off
          shiftType := ignored.extractLsb' 0 2, shiftAmount := off.extractLsb' 26 6 }
      routed :=
        { opcode := 0b11#2 ++ n, format := .M, payload := .M (0b11#2 ++ n) rd rn off
          meaningfulMask := 0xFFFFFC00FFFFFFFF }
      classifierIn := 0b11#2 ++ n
      classifierOut := ⟨0b11, false, false, false, true, n⟩ }

/-- ADD_REG (R129): an R-type word of the opcode `OPC_ADD_REG`, for every value of it that R6 allows.  That the
classifier's ports move with the word is the model's choice (log entry 9). -/
def Obligations.AddRegWordDrivesTheDecodePorts : Prop :=
  ∀ (rd rn rm : RegNum) (mode : BitVec 3) (st : BitVec 2) (sa : BitVec 6) (rest : BitVec 26) (s : State),
    s.params.opcAddReg.extractLsb' 10 2 = 0b00#2 →
    exec (.addReg rd rn rm mode st sa rest) s = .next { s with
      word := s.params.opcAddReg ++ rd ++ rn ++ rm ++ mode ++ st ++ sa ++ rest
      accessors :=
        { opcode := s.params.opcAddReg
          rd := rd, rn := rn, rm := rm, mode := mode
          extended := st ++ sa ++ rest
          immediate := st ++ sa ++ rest
          branchOffset := rd.extractLsb' 0 1 ++ rn ++ rm ++ mode ++ st ++ sa ++ rest
          memoryOffset := sa ++ rest
          shiftType := st, shiftAmount := sa }
      routed :=
        { opcode := s.params.opcAddReg, format := .R, payload := .R s.params.opcAddReg rd rn rm st sa
          meaningfulMask := 0xFFFFFFE000000000 }
      classifierIn := s.params.opcAddReg
      classifierOut := ⟨0b00, true, false, false, false, s.params.opcAddReg.extractLsb' 0 10⟩ }

/-- B (R130): a B-type word of the opcode `OPC_B`, for every value of it that R6 allows.  That the classifier's
ports move with the word is the model's choice (log entry 9). -/
def Obligations.BWordDrivesTheDecodePorts : Prop :=
  ∀ (ignored : BitVec 4) (off : BitVec 48) (s : State),
    s.params.opcB.extractLsb' 10 2 = 0b10#2 →
    exec (.b ignored off) s = .next { s with
      word := s.params.opcB ++ ignored ++ off
      accessors :=
        { opcode := s.params.opcB
          rd := ignored ++ off.extractLsb' 47 1
          rn := off.extractLsb' 42 5, rm := off.extractLsb' 37 5, mode := off.extractLsb' 34 3
          extended := off.extractLsb' 0 34
          immediate := off.extractLsb' 0 34
          branchOffset := off
          memoryOffset := off.extractLsb' 0 32
          shiftType := off.extractLsb' 32 2, shiftAmount := off.extractLsb' 26 6 }
      routed :=
        { opcode := s.params.opcB, format := .B, payload := .B s.params.opcB off
          meaningfulMask := 0xFFF0FFFFFFFFFFFF }
      classifierIn := s.params.opcB
      classifierOut := ⟨0b10, false, false, true, false, s.params.opcB.extractLsb' 0 10⟩ }

/-- LDR (R131): an M-type word of the opcode `OPC_LDR`, for every value of it that R6 allows.  That the
classifier's ports move with the word is the model's choice (log entry 9). -/
def Obligations.LdrWordDrivesTheDecodePorts : Prop :=
  ∀ (rd rn : RegNum) (ignored : BitVec 10) (off : BitVec 32) (s : State),
    s.params.opcLdr.extractLsb' 10 2 = 0b11#2 →
    exec (.ldr rd rn ignored off) s = .next { s with
      word := s.params.opcLdr ++ rd ++ rn ++ ignored ++ off
      accessors :=
        { opcode := s.params.opcLdr
          rd := rd, rn := rn, rm := ignored.extractLsb' 5 5, mode := ignored.extractLsb' 2 3
          extended := ignored.extractLsb' 0 2 ++ off
          immediate := ignored.extractLsb' 0 2 ++ off
          branchOffset := rd.extractLsb' 0 1 ++ rn ++ ignored ++ off
          memoryOffset := off
          shiftType := ignored.extractLsb' 0 2, shiftAmount := off.extractLsb' 26 6 }
      routed :=
        { opcode := s.params.opcLdr, format := .M, payload := .M s.params.opcLdr rd rn off
          meaningfulMask := 0xFFFFFC00FFFFFFFF }
      classifierIn := s.params.opcLdr
      classifierOut := ⟨0b11, false, false, false, true, s.params.opcLdr.extractLsb' 0 10⟩ }

/-- The frame of all seven rows at once (R133, R22): an instruction word moves the decode-side ports only.  The
parameters, the invocations to come, the ports of `make_opcode` and the encoder's ports are as before.  That ports no
invocation drives keep their values is the model's choice (log entries 1 and 9). -/
def Obligations.InstructionWordsLeaveTheOtherPortsAlone : Prop :=
  ∀ (i : Instr) (s t : State), exec i s = .next t →
    t.params = s.params ∧ t.pending = s.pending
    ∧ t.composeTag = s.composeTag ∧ t.composeNumber = s.composeNumber ∧ t.composed = s.composed
    ∧ t.encoderIn = s.encoderIn ∧ t.encoderOut = s.encoderOut
    ∧ t.word = encode s.params i

/-! ### Whole runs -/

/-- R140 and R167, from ANY state: no run stops, and no run changes the build-time parameters (R157).  That each step
uses up one invocation, and none when none is left, is the model's choice (log entry 4). -/
def Obligations.NoRunEverStops : Prop :=
  ∀ (k : Nat) (s : State), ∃ t : State, Host.Core.run Sys2Proof.core k s = .next t
    ∧ t.pending = s.pending.drop k ∧ t.params = s.params

/-- R10, R24, R36, R38: whatever state the machine is in and whatever invocations come before, an invocation
leaves on its output ports exactly the result it has by itself.  The model's choices in it: the list that is used up
from the front (log entry 4), and the classifier's outputs as a part of what decoding a word returns (log entry 9). -/
def Obligations.EveryInvocationReturnsItsOwnResult : Prop :=
  ∀ (s : State) (before after : List Invocation) (inv : Invocation),
    s.pending = before ++ inv :: after →
    ∃ t : State, Host.Core.run Sys2Proof.core (before.length + 1) s = .next t
      ∧ t.pending = after ∧ t.observe inv = resultOf inv

/-- R121, R141, R167: which operations are defined, and at which opcodes, changes no port: a run under other
parameters, well-formed or not, gives the same state but for the parameters themselves. -/
def Obligations.ParametersReachNoPort : Prop :=
  ∀ (k : Nat) (s t : State) (q : Params), Host.Core.run Sys2Proof.core k s = .next t →
    Host.Core.run Sys2Proof.core k { s with params := q } = .next { t with params := q }

/-! ### Invariants of the ports -/

/-- R10, R25: every step keeps every output port the function of the current input ports. -/
def Obligations.StepKeepsOutputsCoherent : Prop :=
  ∀ s t : State, s.Coherent → step s = .next t → t.Coherent

/-- R25, R155: the outputs are the functions of the inputs from the first moment after a reset; the values of
the inputs there are the model's choice (log entry 3). -/
def Obligations.ResetIsCoherent : Prop := State.reset.Coherent

/-- R14, R70, R76, R77, R111, R113, R117, with what the spec infers in R104 and R116: every step keeps the laws
that hold at the output ports whatever was invoked.  That the encoder's word and the routed word are driven from one
record of inputs, and so are the same word when the mismatch bit is 0 and both carry its opcode, is the model's choice
(log entry 8); that a built word is canonical rests on R86 (log entry 7). -/
def Obligations.StepKeepsThePortLaws : Prop :=
  ∀ s t : State, s.PortLaws → step s = .next t → t.PortLaws

/-- The laws of the output ports hold at reset; the inputs there (log entry 3) and the one record of inputs behind the
encoder's word and the routed word (log entry 8) are the model's choices. -/
def Obligations.ResetHasThePortLaws : Prop := State.reset.PortLaws

/-! ### opcode_classifier -/

/-- R76: the partition law.  The four predicates are the four values of `format_tag_of`, exactly one holds of
any opcode, and each holds of exactly 1024 of the 4096 opcodes. -/
def Obligations.FormatPredicatesPartitionTheOpcodes : Prop :=
  (∀ op : Opcode,
    [isRType op, isIType op, isBType op, isMType op].count true = 1
    ∧ isRType op = decide (formatTagOf op = .R) ∧ isIType op = decide (formatTagOf op = .I)
    ∧ isBType op = decide (formatTagOf op = .B) ∧ isMType op = decide (formatTagOf op = .M))
  ∧ ∀ q ∈ [isRType, isIType, isBType, isMType],
      ((List.range 4096).countP fun n => q (BitVec.ofNat 12 n)) = 1024

/-- R44: the tag, the opcode range and the word range of each format. -/
def Obligations.TopTwoBitsSelectTheFormat : Prop :=
  (∀ op : Opcode,
    (formatTagOf op = .R ↔ op.extractLsb' 10 2 = 0b00) ∧ (formatTagOf op = .R ↔ op.toNat ≤ 0x3FF)
    ∧ (formatTagOf op = .I ↔ op.extractLsb' 10 2 = 0b01)
    ∧ (formatTagOf op = .I ↔ 0x400 ≤ op.toNat ∧ op.toNat ≤ 0x7FF)
    ∧ (formatTagOf op = .B ↔ op.extractLsb' 10 2 = 0b10)
    ∧ (formatTagOf op = .B ↔ 0x800 ≤ op.toNat ∧ op.toNat ≤ 0xBFF)
    ∧ (formatTagOf op = .M ↔ op.extractLsb' 10 2 = 0b11) ∧ (formatTagOf op = .M ↔ 0xC00 ≤ op.toNat))
  ∧ ∀ w : Word,
    (formatOfWord w = .R ↔ w.extractLsb' 62 2 = 0b00) ∧ (formatOfWord w = .R ↔ w.toNat ≤ 0x3FFFFFFFFFFFFFFF)
    ∧ (formatOfWord w = .I ↔ w.extractLsb' 62 2 = 0b01)
    ∧ (formatOfWord w = .I ↔ 0x4000000000000000 ≤ w.toNat ∧ w.toNat ≤ 0x7FFFFFFFFFFFFFFF)
    ∧ (formatOfWord w = .B ↔ w.extractLsb' 62 2 = 0b10)
    ∧ (formatOfWord w = .B ↔ 0x8000000000000000 ≤ w.toNat ∧ w.toNat ≤ 0xBFFFFFFFFFFFFFFF)
    ∧ (formatOfWord w = .M ↔ w.extractLsb' 62 2 = 0b11) ∧ (formatOfWord w = .M ↔ 0xC000000000000000 ≤ w.toNat)

/-- R70: `make_opcode` is the source's formula and a bijection from tags and operation numbers onto opcodes. -/
def Obligations.MakeOpcodeIsABijection : Prop :=
  (∀ (tag : Tag) (n : OperationNumber),
    (makeOpcode tag n).toNat = tag.toNat * 1024 + n.toNat
    ∧ formatNumber (formatTagOf (makeOpcode tag n)) = tag ∧ operationNumberOf (makeOpcode tag n) = n)
  ∧ (∀ op : Opcode, ∃ (tag : Tag) (n : OperationNumber), makeOpcode tag n = op)
  ∧ makeOpcode 3 0x100 = 0xD00 ∧ makeOpcode 0 0x200 = 0x200 ∧ makeOpcode 2 0 = 0x800

/-- R77: the operation number is the opcode's low ten bits, with the tag it gives the opcode back, and opcodes
of different formats can share one. -/
def Obligations.OperationNumberIsTheLowTenBits : Prop :=
  (∀ op : Opcode,
    operationNumberOf op = op.extractLsb' 0 10 ∧ (operationNumberOf op).toNat = op.toNat % 1024
    ∧ makeOpcode (formatNumber (formatTagOf op)) (operationNumberOf op) = op)
  ∧ operationNumberOf 0x200 = 0x200 ∧ operationNumberOf 0xA00 = 0x200 ∧ operationNumberOf 0xD00 = 0x100

/-! ### instruction_word_encoder -/

/-- R80: truncation is the value modulo 2^n, that is the low n bits, with the rule's own examples. -/
def Obligations.TruncationIsTheValueModulo : Prop :=
  (∀ (m n : Nat) (v : BitVec m),
    (truncateToWidth v n).toNat = v.toNat % 2 ^ n
    ∧ (truncateToWidth v n).toNat = v.toNat &&& (2 ^ n - 1)
    ∧ (v.toNat < 2 ^ n → (truncateToWidth v n).toNat = v.toNat)
    ∧ (v.toNat = 2 ^ n → truncateToWidth v n = 0))
  ∧ truncateToWidth (0xFFFFFFFFFFFFFFFF : ValIn) 34 = 0x3FFFFFFFF
  ∧ truncateToWidth (0x400000005 : ValIn) 34 = 5

/-- R81 to R84: the word of each builder as a number: the opcode and each truncated operand at its position, and
nothing else, whatever the tag bits of `op`. -/
def Obligations.BuildersPackTheirOperands : Prop :=
  ∀ (op : Opcode) (rd rn rm : RegIn) (v : ValIn),
    (buildR op rd rn rm).toNat
      = op.toNat * 2 ^ 52 + rd.toNat % 32 * 2 ^ 47 + rn.toNat % 32 * 2 ^ 42 + rm.toNat % 32 * 2 ^ 37
    ∧ (buildI op rd rn v).toNat
      = op.toNat * 2 ^ 52 + rd.toNat % 32 * 2 ^ 47 + rn.toNat % 32 * 2 ^ 42 + v.toNat % 2 ^ 34
    ∧ (buildB op v).toNat = op.toNat * 2 ^ 52 + v.toNat % 2 ^ 48
    ∧ (buildM op rd rn v).toNat
      = op.toNat * 2 ^ 52 + rd.toNat % 32 * 2 ^ 47 + rn.toNat % 32 * 2 ^ 42 + v.toNat % 2 ^ 32

/-- The bits a builder does not pack are 0, so its word is canonical under an opcode of its own format, and `mode`
and the shift sub-fields of a built word are 0.  That those bits are 0 is the spec's own choice, not the source's
(R86, decision D4; log entry 7), and the rest is its inference from it. -/
def Obligations.UnpackedBitsAreZero : Prop :=
  ∀ (op : Opcode) (rd rn rm : RegIn) (v : ValIn),
    (buildR op rd rn rm &&& 0x0000001FFFFFFFFF#64 = 0#64 ∧ buildI op rd rn v &&& 0x000003FC00000000#64 = 0#64
      ∧ buildB op v &&& 0x000F000000000000#64 = 0#64 ∧ buildM op rd rn v &&& 0x000003FF00000000#64 = 0#64)
    ∧ (modeOf (buildR op rd rn rm) = 0 ∧ modeOf (buildI op rd rn v) = 0 ∧ modeOf (buildM op rd rn v) = 0
      ∧ shiftTypeOf (buildR op rd rn rm) = 0 ∧ shiftAmountOf (buildR op rd rn rm) = 0)
    ∧ (formatTagOf op = .R → canonical (buildR op rd rn rm) = true)
    ∧ (formatTagOf op = .I → canonical (buildI op rd rn v) = true)
    ∧ (formatTagOf op = .B → canonical (buildB op v) = true)
    ∧ (formatTagOf op = .M → canonical (buildM op rd rn v) = true)

/-- R85: the selected builder puts `op` in the opcode field as it is and lets no bit of it reach any other bit of
the word, so a mismatched tag is not looked at. -/
def Obligations.BuildersDoNotLookAtTheTag : Prop :=
  ∀ (x : EncoderIn) (op : Opcode),
    opcodeOf (buildSelected x) = x.op
    ∧ buildSelected { x with op := op }
        = (buildSelected x &&& 0x000FFFFFFFFFFFFF#64) ||| (op.setWidth 64 <<< 52)

/-! ### instruction_word_decoder -/

/-- R91 to R101: every accessor, as a number, is the word shifted and masked, for every word of any format. -/
def Obligations.AccessorsAreUnsignedSlices : Prop :=
  ∀ w : Word,
    (opcodeOf w).toNat = w.toNat / 2 ^ 52 % 2 ^ 12 ∧ (rdOf w).toNat = w.toNat / 2 ^ 47 % 2 ^ 5
    ∧ (rnOf w).toNat = w.toNat / 2 ^ 42 % 2 ^ 5 ∧ (rmOf w).toNat = w.toNat / 2 ^ 37 % 2 ^ 5
    ∧ (modeOf w).toNat = w.toNat / 2 ^ 34 % 2 ^ 3 ∧ (extendedOf w).toNat = w.toNat % 2 ^ 34
    ∧ (immediateOf w).toNat = w.toNat % 2 ^ 34 ∧ (branchOffsetOf w).toNat = w.toNat % 2 ^ 48
    ∧ (memoryOffsetOf w).toNat = w.toNat % 2 ^ 32 ∧ (shiftTypeOf w).toNat = w.toNat / 2 ^ 32 % 2 ^ 2
    ∧ (shiftAmountOf w).toNat = w.toNat / 2 ^ 26 % 2 ^ 6

/-- The record of accessor values loses nothing of the word: R104, which the spec marks as derived from R91 to R101
and R41 and as its own packaging. -/
def Obligations.AccessorRecordLosesNothing : Prop :=
  (∀ w : Word, opcodeOf w ++ rdOf w ++ rnOf w ++ rmOf w ++ modeOf w ++ extendedOf w = w
    ∧ decodeAll w = ⟨opcodeOf w, rdOf w, rnOf w, rmOf w, modeOf w, extendedOf w, immediateOf w,
        branchOffsetOf w, memoryOffsetOf w, shiftTypeOf w, shiftAmountOf w⟩)
  ∧ decodeAll 0x0123456789ABCDEF
      = ⟨0x012, 6, 17, 11, 1, 0x389ABCDEF, 0x389ABCDEF, 0x456789ABCDEF, 0x89ABCDEF, 3, 34⟩
  ∧ decodeAll 0xFFFFFFFFFFFFFFFF
      = ⟨0xFFF, 31, 31, 31, 7, 0x3FFFFFFFF, 0x3FFFFFFFF, 0xFFFFFFFFFFFF, 0xFFFFFFFF, 3, 63⟩

/-- The logical fields are readings of the same physical bits: R52, which the spec marks as derived from R41 and
R42. -/
def Obligations.LogicalFieldsReadThePhysicalBits : Prop :=
  ∀ w : Word,
    immediateOf w = extendedOf w
    ∧ extendedOf w = shiftTypeOf w ++ shiftAmountOf w ++ w.extractLsb' 0 26
    ∧ memoryOffsetOf w = shiftAmountOf w ++ w.extractLsb' 0 26
    ∧ branchOffsetOf w = (rdOf w).extractLsb' 0 1 ++ rnOf w ++ rmOf w ++ modeOf w ++ extendedOf w
    ∧ opcodeOf w = tagOf w ++ operationNumberOf (opcodeOf w)

/-! ### format_router -/

/-- R114: encode, then decode: for operands within their field widths every field of the format comes back as it
was given, and for any others truncated. -/
def Obligations.RoutedRoundTrip : Prop :=
  (∀ (op : Opcode) (rd rn rm : RegNum) (imm : BitVec 34) (boff : BitVec 48) (moff : BitVec 32),
    (formatTagOf op = .R → decodeRouted (buildR op (rd.setWidth 8) (rn.setWidth 8) (rm.setWidth 8))
      = .R op rd rn rm 0 0)
    ∧ (formatTagOf op = .I → decodeRouted (buildI op (rd.setWidth 8) (rn.setWidth 8) (imm.setWidth 64))
      = .I op rd rn imm)
    ∧ (formatTagOf op = .B → decodeRouted (buildB op (boff.setWidth 64)) = .B op boff)
    ∧ (formatTagOf op = .M → decodeRouted (buildM op (rd.setWidth 8) (rn.setWidth 8) (moff.setWidth 64))
      = .M op rd rn moff))
  ∧ ∀ (op : Opcode) (rd rn rm : RegIn) (v : ValIn),
    (formatTagOf op = .R → decodeRouted (buildR op rd rn rm)
      = .R op (truncateToWidth rd 5) (truncateToWidth rn 5) (truncateToWidth rm 5) 0 0)
    ∧ (formatTagOf op = .I → decodeRouted (buildI op rd rn v)
      = .I op (truncateToWidth rd 5) (truncateToWidth rn 5) (truncateToWidth v 34))
    ∧ (formatTagOf op = .B → decodeRouted (buildB op v) = .B op (truncateToWidth v 48))
    ∧ (formatTagOf op = .M → decodeRouted (buildM op rd rn v)
      = .M op (truncateToWidth rd 5) (truncateToWidth rn 5) (truncateToWidth v 32))

/-- Decode, then encode: the opcode and the valid fields survive, every ignored bit comes back as 0, and the word
comes back whole exactly when it is canonical.  R116, of which the spec says that the source does not state it and
that it follows from R113, R86 and R61 (log entry 7). -/
def Obligations.ReencodingKeepsTheMeaningfulBits : Prop :=
  (∀ w : Word, reencode (decodeRouted w) = w &&& meaningfulMask (formatOfWord w)
    ∧ (reencode (decodeRouted w) = w ↔ canonical w = true))
  ∧ reencode (decodeRouted 0x2000886230000000) = 0x2000886000000000

/-- R113, R56: the routed decode is opcode, format and valid fields of the word, and two words have the same
routed decode exactly when they differ in no bit but ignored ones. -/
def Obligations.RoutedDecodeDropsExactlyTheIgnoredBits : Prop :=
  ∀ w w' : Word,
    decodeRouted w = decodeRouted w' ↔
      (w ^^^ w') &&& (if formatOfWord w = .R then 0xFFFFFFE3FC000000#64 else meaningfulMask (formatOfWord w)) = 0#64

/-- R115: the declared fields of a format share no bit; with a builder of the opcode's own format a field's decoded
value changes exactly when its own (truncated) operand does, whatever the other operands do; and an accessor that
is not valid for the format does see another field's operand. -/
def Obligations.FieldsAreIsolated : Prop :=
  (∀ f : Format, (Field.opcode :: validFields f).Pairwise fun g h => g.wordMask &&& h.wordMask = 0)
  ∧ (∀ (op op' : Opcode) (rd rn rm rd' rn' rm' : RegIn), formatTagOf op = .R → formatTagOf op' = .R →
      (opcodeOf (buildR op rd rn rm) = opcodeOf (buildR op' rd' rn' rm') ↔ op = op')
      ∧ (rdOf (buildR op rd rn rm) = rdOf (buildR op' rd' rn' rm') ↔ truncateToWidth rd 5 = truncateToWidth rd' 5)
      ∧ (rnOf (buildR op rd rn rm) = rnOf (buildR op' rd' rn' rm') ↔ truncateToWidth rn 5 = truncateToWidth rn' 5)
      ∧ (rmOf (buildR op rd rn rm) = rmOf (buildR op' rd' rn' rm') ↔ truncateToWidth rm 5 = truncateToWidth rm' 5))
  ∧ (∀ (op op' : Opcode) (rd rn rd' rn' : RegIn) (v v' : ValIn), formatTagOf op = .I → formatTagOf op' = .I →
      (opcodeOf (buildI op rd rn v) = opcodeOf (buildI op' rd' rn' v') ↔ op = op')
      ∧ (rdOf (buildI op rd rn v) = rdOf (buildI op' rd' rn' v') ↔ truncateToWidth rd 5 = truncateToWidth rd' 5)
      ∧ (rnOf (buildI op rd rn v) = rnOf (buildI op' rd' rn' v') ↔ truncateToWidth rn 5 = truncateToWidth rn' 5)
      ∧ (immediateOf (buildI op rd rn v) = immediateOf (buildI op' rd' rn' v') ↔
          truncateToWidth v 34 = truncateToWidth v' 34))
  ∧ (∀ (op op' : Opcode) (v v' : ValIn), formatTagOf op = .B → formatTagOf op' = .B →
      (opcodeOf (buildB op v) = opcodeOf (buildB op' v') ↔ op = op')
      ∧ (branchOffsetOf (buildB op v) = branchOffsetOf (buildB op' v') ↔
          truncateToWidth v 48 = truncateToWidth v' 48))
  ∧ (∀ (op op' : Opcode) (rd rn rd' rn' : RegIn) (v v' : ValIn), formatTagOf op = .M → formatTagOf op' = .M →
      (opcodeOf (buildM op rd rn v) = opcodeOf (buildM op' rd' rn' v') ↔ op = op')
      ∧ (rdOf (buildM op rd rn v) = rdOf (buildM op' rd' rn' v') ↔ truncateToWidth rd 5 = truncateToWidth rd' 5)
      ∧ (rnOf (buildM op rd rn v) = rnOf (buildM op' rd' rn' v') ↔ truncateToWidth rn 5 = truncateToWidth rn' 5)
      ∧ (memoryOffsetOf (buildM op rd rn v) = memoryOffsetOf (buildM op' rd' rn' v') ↔
          truncateToWidth v 32 = truncateToWidth v' 32))
  ∧ buildR 0x200 0 0 31 = 0x200003E000000000 ∧ branchOffsetOf (buildR 0x200 0 0 31) = 0x03E000000000

/-- R111, R112, R117: `encode_routed` is the builder the tag calls for, whatever `builder_sel` stands beside it, so
it reports no mismatch, its word is canonical and carries the opcode, and an operand its builder does not take plays
no part.  R112 is marked as derived by the spec; that `encode_routed` presents the tag as `builder_sel` is the model's
choice (log entry 8), and canonical rests on R86 (log entry 7). -/
def Obligations.RoutedEncodingMatchesItsOpcode : Prop :=
  (∀ (op : Opcode) (rd rn rm rd' rn' rm' : RegIn) (imm boff moff imm' boff' moff' : ValIn),
    (formatTagOf op = .R → encodeRouted op rd rn rm imm boff moff = buildR op rd rn rm)
    ∧ (formatTagOf op = .I → encodeRouted op rd rn rm imm boff moff = buildI op rd rn imm)
    ∧ (formatTagOf op = .B → encodeRouted op rd rn rm imm boff moff = buildB op boff)
    ∧ (formatTagOf op = .M → encodeRouted op rd rn rm imm boff moff = buildM op rd rn moff)
    ∧ encodeRouted op rd rn rm imm boff moff = buildSelected (routedInputs op rd rn rm imm boff moff)
    ∧ builderMismatch (routedInputs op rd rn rm imm boff moff).builderSel op = false
    ∧ canonical (encodeRouted op rd rn rm imm boff moff) = true
    ∧ opcodeOf (encodeRouted op rd rn rm imm boff moff) = op
    ∧ (formatTagOf op = .R →
        encodeRouted op rd rn rm imm boff moff = encodeRouted op rd rn rm imm' boff' moff')
    ∧ (formatTagOf op = .I →
        encodeRouted op rd rn rm imm boff moff = encodeRouted op rd rn rm' imm boff' moff')
    ∧ (formatTagOf op = .B →
        encodeRouted op rd rn rm imm boff moff = encodeRouted op rd' rn' rm' imm' boff moff')
    ∧ (formatTagOf op = .M →
        encodeRouted op rd rn rm imm boff moff = encodeRouted op rd rn rm' imm' boff' moff))
  ∧ (∀ x : EncoderIn, (driveEncoder x).routedWord = encodeRouted x.op x.rd x.rn x.rm x.imm x.boffset x.moffset)
  ∧ encodeRouted 0xD00 9 31 7 0x55 0x66 0x1000 = 0xD004FC0000001000

/-- R117: the mismatch bit is 1 exactly when `builder_sel` is not the opcode's tag, that is when the builder in use
is not the one of the opcode's format, and so stands on the port for every input; and the word is the one of the
builder in use, whatever the bit is. -/
def Obligations.MismatchReportsTheWrongBuilder : Prop :=
  (∀ (sel : Tag) (op : Opcode),
    (builderMismatch sel op = true ↔ sel ≠ op.extractLsb' 10 2)
    ∧ (builderMismatch sel op = true ↔ formatOfTag sel ≠ formatTagOf op))
  ∧ (∀ x : EncoderIn, (driveEncoder x).builderMismatch = true ↔ x.builderSel ≠ x.op.extractLsb' 10 2)
  ∧ (∀ (op : Opcode) (rd rn rm : RegIn) (imm boff moff : ValIn),
      (driveEncoder ⟨0, op, rd, rn, rm, imm, boff, moff⟩).word = buildR op rd rn rm
      ∧ (driveEncoder ⟨1, op, rd, rn, rm, imm, boff, moff⟩).word = buildI op rd rn imm
      ∧ (driveEncoder ⟨2, op, rd, rn, rm, imm, boff, moff⟩).word = buildB op boff
      ∧ (driveEncoder ⟨3, op, rd, rn, rm, imm, boff, moff⟩).word = buildM op rd rn moff)
  ∧ (∀ (op : Opcode) (rd rn rm : RegIn) (imm boff moff : ValIn),
      builderMismatch (routedInputs op rd rn rm imm boff moff).builderSel op = false)
  ∧ builderMismatch 0 0x400 = true ∧ builderMismatch 2 0x800 = false

/-- R118, R142, R146, for the overflow port of every encoder input, whatever `builder_sel` and the opcode are: the
bit is 1 exactly when an operand that the builder in use packs is outside its field; it is 0 exactly when each of them
can be read back from the word as it was given; the opcode plays no part in it; it changes no word, since truncating
the operands beforehand clears the bit and gives the same word; and both advisory bits may be 1 at once. -/
def Obligations.OverflowReportsTheLostOperands : Prop :=
  (∀ x : EncoderIn,
    ((driveEncoder x).operandOverflow = true ↔
      match formatOfTag x.builderSel with
      | .R => 32 ≤ x.rd.toNat ∨ 32 ≤ x.rn.toNat ∨ 32 ≤ x.rm.toNat
      | .I => 32 ≤ x.rd.toNat ∨ 32 ≤ x.rn.toNat ∨ 2 ^ 34 ≤ x.imm.toNat
      | .B => 2 ^ 48 ≤ x.boffset.toNat
      | .M => 32 ≤ x.rd.toNat ∨ 32 ≤ x.rn.toNat ∨ 2 ^ 32 ≤ x.moffset.toNat)
    ∧ ((driveEncoder x).operandOverflow = false ↔
      match formatOfTag x.builderSel with
      | .R => (rdOf (driveEncoder x).word).toNat = x.rd.toNat ∧ (rnOf (driveEncoder x).word).toNat = x.rn.toNat
          ∧ (rmOf (driveEncoder x).word).toNat = x.rm.toNat
      | .I => (rdOf (driveEncoder x).word).toNat = x.rd.toNat ∧ (rnOf (driveEncoder x).word).toNat = x.rn.toNat
          ∧ (immediateOf (driveEncoder x).word).toNat = x.imm.toNat
      | .B => (branchOffsetOf (driveEncoder x).word).toNat = x.boffset.toNat
      | .M => (rdOf (driveEncoder x).word).toNat = x.rd.toNat ∧ (rnOf (driveEncoder x).word).toNat = x.rn.toNat
          ∧ (memoryOffsetOf (driveEncoder x).word).toNat = x.moffset.toNat)
    ∧ (∀ op : Opcode, (driveEncoder { x with op := op }).operandOverflow = (driveEncoder x).operandOverflow)
    ∧ (driveEncoder x.truncated).operandOverflow = false
    ∧ (driveEncoder x.truncated).word = (driveEncoder x).word)
  ∧ (driveEncoder ⟨1, 0x400, 0, 0, 0, 0x400000000, 0, 0⟩).operandOverflow = true
  ∧ (driveEncoder ⟨1, 0x400, 31, 31, 0, 0x3FFFFFFFF, 0, 0⟩).operandOverflow = false
  ∧ (driveEncoder ⟨0, 0x400, 32, 0, 0, 0, 0, 0⟩).operandOverflow = true
  ∧ (driveEncoder ⟨0, 0x400, 32, 0, 0, 0, 0, 0⟩).builderMismatch = true

/-- R142, R158, R159 with R114: a producer that uses the builder of the opcode's format and keeps every operand
within its field reports neither advisory bit, and a consumer's routed decode gives its very operands back.  That the
word is canonical rests on R61 and R86 (log entry 7). -/
def Obligations.KeptContractGivesTheOperandsBack : Prop :=
  ∀ x : EncoderIn, producerContract x = true →
    (driveEncoder x).builderMismatch = false ∧ (driveEncoder x).operandOverflow = false
    ∧ canonical (driveEncoder x).word = true
    ∧ match decodeRouted (driveEncoder x).word with
      | .R op rd rn rm st sa => op = x.op ∧ rd.toNat = x.rd.toNat ∧ rn.toNat = x.rn.toNat
          ∧ rm.toNat = x.rm.toNat ∧ st = 0 ∧ sa = 0
      | .I op rd rn imm => op = x.op ∧ rd.toNat = x.rd.toNat ∧ rn.toNat = x.rn.toNat
          ∧ imm.toNat = x.imm.toNat
      | .B op off => op = x.op ∧ off.toNat = x.boffset.toNat
      | .M op rd rn off => op = x.op ∧ rd.toNat = x.rd.toNat ∧ rn.toNat = x.rn.toNat
          ∧ off.toNat = x.moffset.toNat

/-- R119: a builder used with an opcode of another format: the consumer reads the fields of the opcode's format
from the bits the builder left there.  All twelve pairs of a builder and another format. -/
def Obligations.MismatchedWordsDecodeByTheirOpcode : Prop :=
  ∀ (op : Opcode) (rd rn rm : RegIn) (v : ValIn),
    (formatTagOf op = .I →
      decodeRouted (buildR op rd rn rm) = .I op (truncateToWidth rd 5) (truncateToWidth rn 5) 0
      ∧ decodeRouted (buildB op v)
        = .I op ((v.extractLsb' 47 1).setWidth 5) (v.extractLsb' 42 5) (v.extractLsb' 0 34)
      ∧ decodeRouted (buildM op rd rn v)
        = .I op (truncateToWidth rd 5) (truncateToWidth rn 5) ((v.extractLsb' 0 32).setWidth 34))
    ∧ (formatTagOf op = .R →
      decodeRouted (buildI op rd rn v)
        = .R op (truncateToWidth rd 5) (truncateToWidth rn 5) 0 (v.extractLsb' 32 2) (v.extractLsb' 26 6)
      ∧ decodeRouted (buildB op v)
        = .R op ((v.extractLsb' 47 1).setWidth 5) (v.extractLsb' 42 5) (v.extractLsb' 37 5)
            (v.extractLsb' 32 2) (v.extractLsb' 26 6)
      ∧ decodeRouted (buildM op rd rn v)
        = .R op (truncateToWidth rd 5) (truncateToWidth rn 5) 0 0 (v.extractLsb' 26 6))
    ∧ (formatTagOf op = .B →
      decodeRouted (buildR op rd rn rm)
        = .B op (rd.extractLsb' 0 1 ++ truncateToWidth rn 5 ++ truncateToWidth rm 5 ++ 0#37)
      ∧ decodeRouted (buildI op rd rn v)
        = .B op (rd.extractLsb' 0 1 ++ truncateToWidth rn 5 ++ 0#8 ++ v.extractLsb' 0 34)
      ∧ decodeRouted (buildM op rd rn v)
        = .B op (rd.extractLsb' 0 1 ++ truncateToWidth rn 5 ++ 0#10 ++ v.extractLsb' 0 32))
    ∧ (formatTagOf op = .M →
      decodeRouted (buildR op rd rn rm) = .M op (truncateToWidth rd 5) (truncateToWidth rn 5) 0
      ∧ decodeRouted (buildI op rd rn v)
        = .M op (truncateToWidth rd 5) (truncateToWidth rn 5) (v.extractLsb' 0 32)
      ∧ decodeRouted (buildB op v)
        = .M op ((v.extractLsb' 47 1).setWidth 5) (v.extractLsb' 42 5) (v.extractLsb' 0 32))

/-- R120: an operation whose variant carries its format cannot be built by the wrong builder: its word has its
opcode, is canonical and is that of `encode_routed`, of which the mismatch bit is 0.  Canonical rests on R86 (log
entry 7). -/
def Obligations.TypedOperationsCannotMismatch : Prop :=
  ∀ o : TypedOperation,
    opcodeOf o.encode = o.opcode ∧ canonical o.encode = true
    ∧ match o with
      | .R _ rd rn rm => formatTagOf o.opcode = .R ∧ o.encode = encodeRouted o.opcode rd rn rm 0 0 0
      | .I _ rd rn imm => formatTagOf o.opcode = .I ∧ o.encode = encodeRouted o.opcode rd rn 0 imm 0 0
      | .B _ off => formatTagOf o.opcode = .B ∧ o.encode = encodeRouted o.opcode 0 0 0 0 off 0
      | .M _ rd rn off => formatTagOf o.opcode = .M ∧ o.encode = encodeRouted o.opcode rd rn 0 0 0 off

/-! ### What the spec asks of the surroundings -/

/-- R103, R127, R161 with R83: a displacement of -2^47 to 2^47 - 1 words, handed to `build_b` as its 64-bit
two's-complement pattern, is what a consumer reads back by sign extension from 48 bits; every word's displacement
is in that range; and without the sign extension a negative one reads as 2^48 more. -/
def Obligations.BranchDisplacementsSurviveTheWord : Prop :=
  (∀ (op : Opcode) (d : Int), -2 ^ 47 ≤ d → d < 2 ^ 47 →
    branchDisplacement (buildB op (BitVec.ofInt 64 d)) = d
    ∧ (d < 0 → ((branchOffsetOf (buildB op (BitVec.ofInt 64 d))).toNat : Int) = d + 2 ^ 48))
  ∧ ∀ w : Word, -2 ^ 47 ≤ branchDisplacement w ∧ branchDisplacement w < 2 ^ 47

/-- R103, R126, R161 with R82: the same for an immediate of an operation that `IMM_SIGNED` lists, and for one
that it does not list the unsigned pattern is the value. -/
def Obligations.ImmediatesSurviveTheWord : Prop :=
  ∀ (c : ConsumerParams) (op : Opcode) (rd rn : RegIn),
    (op ∈ c.signedImmediates → ∀ v : Int, -2 ^ 33 ≤ v → v < 2 ^ 33 →
      immediateValue c (buildI op rd rn (BitVec.ofInt 64 v)) = v)
    ∧ (op ∉ c.signedImmediates → ∀ v : Int, 0 ≤ v → v < 2 ^ 34 →
      immediateValue c (buildI op rd rn (BitVec.ofInt 64 v)) = v)

/-- R141, R163, R164: under a well-formed table, looking an opcode up finds the one operation that has it, and
none exactly when the opcode is not known: the consumer's illegal-instruction condition. -/
def Obligations.LookupFindsTheOnlyOperation : Prop :=
  ∀ (p : Params) (op : Opcode), p.wf = true →
    (∀ o : Operation, lookupOperation p op = some o ↔ o ∈ p.operationTable ∧ o.opcode = op)
    ∧ (lookupOperation p op = none ↔ isKnown p op = false)

/-- R17, R162: the execution contract of register 0, for registers of any width: it reads as zero, a write to it
is dropped.  That every other register holds what was written to it last is the model's inference (log entry
12): what registers do is execution semantics (R21). -/
def Obligations.RegisterZeroIsHardwired : Prop :=
  ∀ (k : Nat) (file : Vector (BitVec k) 32) (r q : RegNum) (v : BitVec k),
    readRegister file 0 = 0
    ∧ writeRegister file 0 v = file
    ∧ (r ≠ 0 → readRegister (writeRegister file r v) r = v)
    ∧ (q ≠ r → readRegister (writeRegister file r v) q = readRegister file q)

/-- R16: encodings 0 to 30 name X0 to X30, 31 names SP, and the 32 names are distinct.  That the names run in
numeric order is the spec's own reading of the source's list (decision D12; log entry 16). -/
def Obligations.RegisterNumbersNameTheRegisters : Prop :=
  (∀ r : RegNum, registerNumber (registerName r) = r)
  ∧ (∀ x : Register, registerName (registerNumber x) = x)
  ∧ (∀ n : Fin 31, registerName (BitVec.ofNat 5 n.val) = .x n)
  ∧ registerName 31 = .sp

/-- R160, R56: a consumer that reads only the fields it may read cannot tell apart two words that differ in
ignored bits only. -/
def Obligations.PermittedReadsIgnoreStrayBits : Prop :=
  ∀ (c : ConsumerParams) (w w' : Word) (f : Field),
    (w ^^^ w') &&& (if shiftFieldsMeaningful c w = true then meaningfulMaskShifted
      else meaningfulMask (formatOfWord w)) = 0#64 →
    mayRead c w f = mayRead c w' f ∧ (mayRead c w f = true → f.extract w = f.extract w')

/-- R50 with `91_not_in_source.md` N14: OR-ing shift sub-fields into a built R-type word makes the routed decode
carry them and leaves the opcode, the registers and `mode` as they were; re-encoding loses them again (R116, marked as
derived by the spec).  The OR is the producer's arithmetic, no function of the codec (log entry 18); that the bits it
meets are 0 rests on R86 (log entry 7). -/
def Obligations.ShiftFieldsOredInDecodeAsSet : Prop :=
  ∀ (op : Opcode) (rd rn rm : RegIn) (st : BitVec 2) (sa : BitVec 6), formatTagOf op = .R →
    decodeRouted (withShiftFields (buildR op rd rn rm) st sa)
      = .R op (truncateToWidth rd 5) (truncateToWidth rn 5) (truncateToWidth rm 5) st sa
    ∧ modeOf (withShiftFields (buildR op rd rn rm) st sa) = 0
    ∧ reencode (decodeRouted (withShiftFields (buildR op rd rn rm) st sa)) = buildR op rd rn rm

/-- R32, R40: in every byte order a loader's eight bytes give the word back, and decode with the bytes after
them; fewer than eight bytes are rejected by name; and the two plain orders are the plain concatenations.  The byte
form is the model's (log entry 14). -/
def Obligations.LoaderBytesGiveTheWord : Prop :=
  (∀ (p : Params) (order : ByteOrder) (w : Word) (rest : List Byte),
    decodeBytes p order (bytesOfWord order w ++ rest) = .ok (decodeWord p w, rest)
    ∧ (rest.length < 8 → decodeBytes p order rest = .error .incompleteWord))
  ∧ ∀ b0 b1 b2 b3 b4 b5 b6 b7 : Byte,
    wordOfBytes .leastSignificantFirst #v[b0, b1, b2, b3, b4, b5, b6, b7]
      = b7 ++ b6 ++ b5 ++ b4 ++ b3 ++ b2 ++ b1 ++ b0
    ∧ wordOfBytes .mostSignificantFirst #v[b0, b1, b2, b3, b4, b5, b6, b7]
      = b0 ++ b1 ++ b2 ++ b3 ++ b4 ++ b5 ++ b6 ++ b7

/-- R103, R128 with R84: an offset handed to `build_m` as its 64-bit pattern is what a consumer reads back, from
-2^31 to 2^31 - 1 by sign extension from 32 bits if `MOFF_SIGNED`, from 0 to 2^32 - 1 if not; every word's offset is
in the range of its reading; and a negative offset read as unsigned is 2^32 more. -/
def Obligations.MemoryOffsetsSurviveTheWord : Prop :=
  ∀ (c : ConsumerParams) (op : Opcode) (rd rn : RegIn) (w : Word),
    (c.memoryOffsetSigned = true →
      (∀ v : Int, -2 ^ 31 ≤ v → v < 2 ^ 31 → memoryOffsetValue c (buildM op rd rn (BitVec.ofInt 64 v)) = v)
      ∧ -2 ^ 31 ≤ memoryOffsetValue c w ∧ memoryOffsetValue c w < 2 ^ 31)
    ∧ (c.memoryOffsetSigned = false →
      (∀ v : Int, 0 ≤ v → v < 2 ^ 32 → memoryOffsetValue c (buildM op rd rn (BitVec.ofInt 64 v)) = v)
      ∧ (∀ v : Int, -2 ^ 31 ≤ v → v < 0 → memoryOffsetValue c (buildM op rd rn (BitVec.ofInt 64 v)) = v + 2 ^ 32)
      ∧ 0 ≤ memoryOffsetValue c w ∧ memoryOffsetValue c w < 2 ^ 32)

/-- R51, R95, R160: `mode` has no meaning in any word unless `MODE_SEMANTICS` gives it one, and none in a B-type word
at all; it is no field a consumer may read by its format; what it means under a given parameter is read from the
opcode and word bits [36:34] and from nothing else; and in a word of `build_r`, `build_i` or `build_m` that is the
meaning of 0 (R86; log entry 7).  How the parameter is keyed is the model's choice (log entry 15). -/
def Obligations.ModeMeansOnlyWhatTheParameterSays : Prop :=
  ∀ (c : ConsumerParams) (w w' : Word) (op : Opcode) (rd rn rm : RegIn) (v : ValIn),
    (c.modeSemantics = [] → modeMeaning c w = none)
    ∧ (formatOfWord w = .B → modeMeaning c w = none)
    ∧ mayRead c w .mode = false
    ∧ (w.extractLsb' 52 12 = w'.extractLsb' 52 12 → w.extractLsb' 34 3 = w'.extractLsb' 34 3 →
        modeMeaning c w = modeMeaning c w')
    ∧ (formatTagOf op = .R → modeMeaning c (buildR op rd rn rm) = c.modeSemantics.lookup (op, 0))
    ∧ (formatTagOf op = .I → modeMeaning c (buildI op rd rn v) = c.modeSemantics.lookup (op, 0))
    ∧ (formatTagOf op = .M → modeMeaning c (buildM op rd rn v) = c.modeSemantics.lookup (op, 0))
end

