-- ==== Sys2Proof/Laws/Bits.lean ====
section
/-! SUPPORT. The bit-level operations as arithmetic on natural numbers: concatenation, slices, the named truncation,
the shift-and-mask of the accessors and the shift-and-or of the builders.  With these a fact about fields is a
goal for omega. -/

namespace Sys2Proof.Machine

theorem append_toNat {m n : Nat} (x : BitVec m) (y : BitVec n) :
    (x ++ y).toNat = x.toNat * 2 ^ n + y.toNat := by
  rw [BitVec.toNat_append, ← Nat.shiftLeft_add_eq_or_of_lt y.isLt, Nat.shiftLeft_eq]

theorem extractLsb'_toNat_div {m : Nat} (x : BitVec m) (lo n : Nat) :
    (x.extractLsb' lo n).toNat = x.toNat / 2 ^ lo % 2 ^ n := by
  simp [BitVec.extractLsb'_toNat, Nat.shiftRight_eq_div_pow]

theorem truncateToWidth_eq_setWidth {m : Nat} (v : BitVec m) (n : Nat) :
    truncateToWidth v n = v.setWidth n := by
  apply BitVec.eq_of_toNat_eq
  simp [truncateToWidth]

/-- A value of the field's own width, widened to a port, is not changed by truncation (R80). -/
@[simp] theorem truncateToWidth_of_setWidth {m n : Nat} (v : BitVec n) (h : n ≤ m) :
    truncateToWidth (v.setWidth m) n = v := by
  rw [truncateToWidth_eq_setWidth, BitVec.setWidth_setWidth_of_le _ h, BitVec.setWidth_eq]

theorem fieldAt_toNat_div (lo n : Nat) (w : Word) (h : n ≤ 64) :
    (fieldAt lo n w).toNat = w.toNat / 2 ^ lo % 2 ^ n := by
  have mask : (2 ^ n - 1) % 2 ^ 64 = 2 ^ n - 1 :=
    Nat.mod_eq_of_lt (lt_of_lt_of_le (Nat.sub_lt (Nat.two_pow_pos _) one_pos)
      (Nat.pow_le_pow_right (by omega) h))
  simp only [fieldAt, BitVec.toNat_setWidth, BitVec.toNat_and, BitVec.toNat_ushiftRight,
    BitVec.toNat_ofNat, mask, Nat.and_two_pow_sub_one_eq_mod, Nat.shiftRight_eq_div_pow, Nat.mod_mod]

/-- Shift and mask is the slice of the same bits. -/
theorem fieldAt_eq_extractLsb' (lo n : Nat) (w : Word) (h : n ≤ 64) :
    fieldAt lo n w = w.extractLsb' lo n := by
  apply BitVec.eq_of_toNat_eq
  rw [fieldAt_toNat_div lo n w h, extractLsb'_toNat_div]

theorem packAt_toNat {n : Nat} (v : BitVec n) (lo : Nat) (h : n + lo ≤ 64) :
    (packAt v lo).toNat = v.toNat * 2 ^ lo := by
  have hv := v.isLt
  have fits : v.toNat * 2 ^ lo < 2 ^ 64 := calc
    v.toNat * 2 ^ lo < 2 ^ n * 2 ^ lo := by gcongr
    _ = 2 ^ (n + lo) := by rw [pow_add]
    _ ≤ 2 ^ 64 := Nat.pow_le_pow_right (by omega) h
  have small : v.toNat < 2 ^ 64 := lt_of_le_of_lt (Nat.le_mul_of_pos_right _ (Nat.two_pow_pos _)) fits
  simp only [packAt, BitVec.toNat_shiftLeft, BitVec.toNat_setWidth, Nat.shiftLeft_eq]
  rw [Nat.mod_eq_of_lt small, Nat.mod_eq_of_lt fits]

/-- OR-ing a field below bit `k` into a word whose low `k` bits are 0 is addition. -/
theorem or_toNat_of_low_zero (x y : Word) (k : Nat) (hx : x.toNat % 2 ^ k = 0) (hy : y.toNat < 2 ^ k) :
    (x ||| y).toNat = x.toNat + y.toNat := by
  obtain ⟨c, hc⟩ := Nat.dvd_of_mod_eq_zero hx
  rw [BitVec.toNat_or, hc, ← Nat.two_pow_add_eq_or_of_lt hy]

end Sys2Proof.Machine
end

