-- ==== Sys2Proof/Laws/Words.lean ====
section
/-! SUPPORT. The four row patterns as numbers, the accessors of a pattern, a word as its own pattern, and each
builder as the pattern it fills: one specification lemma per function. -/

namespace Sys2Proof.Machine

theorem opcodeOf_eq_slice (w : Word) : opcodeOf w = w.extractLsb' 52 12 :=
  fieldAt_eq_extractLsb' _ _ w (by decide)
theorem rdOf_eq_slice (w : Word) : rdOf w = w.extractLsb' 47 5 :=
  fieldAt_eq_extractLsb' _ _ w (by decide)
theorem rnOf_eq_slice (w : Word) : rnOf w = w.extractLsb' 42 5 :=
  fieldAt_eq_extractLsb' _ _ w (by decide)
theorem rmOf_eq_slice (w : Word) : rmOf w = w.extractLsb' 37 5 :=
  fieldAt_eq_extractLsb' _ _ w (by decide)
theorem modeOf_eq_slice (w : Word) : modeOf w = w.extractLsb' 34 3 :=
  fieldAt_eq_extractLsb' _ _ w (by decide)
theorem extendedOf_eq_slice (w : Word) : extendedOf w = w.extractLsb' 0 34 :=
  fieldAt_eq_extractLsb' _ _ w (by decide)
theorem immediateOf_eq_slice (w : Word) : immediateOf w = w.extractLsb' 0 34 :=
  fieldAt_eq_extractLsb' _ _ w (by decide)
theorem branchOffsetOf_eq_slice (w : Word) : branchOffsetOf w = w.extractLsb' 0 48 :=
  fieldAt_eq_extractLsb' _ _ w (by decide)
theorem memoryOffsetOf_eq_slice (w : Word) : memoryOffsetOf w = w.extractLsb' 0 32 :=
  fieldAt_eq_extractLsb' _ _ w (by decide)
theorem shiftTypeOf_eq_slice (w : Word) : shiftTypeOf w = w.extractLsb' 32 2 :=
  fieldAt_eq_extractLsb' _ _ w (by decide)
theorem shiftAmountOf_eq_slice (w : Word) : shiftAmountOf w = w.extractLsb' 26 6 :=
  fieldAt_eq_extractLsb' _ _ w (by decide)
theorem tagOf_eq_slice (w : Word) : tagOf w = w.extractLsb' 62 2 :=
  fieldAt_eq_extractLsb' _ _ w (by decide)

theorem rWord_toNat (op : Opcode) (rd : RegNum) (rn : RegNum) (rm : RegNum) (mode : BitVec 3) (st : BitVec 2) (sa : BitVec 6) (rest : BitVec 26) :
    (rWord op rd rn rm mode st sa rest).toNat
      = op.toNat * 2 ^ 52 + rd.toNat * 2 ^ 47 + rn.toNat * 2 ^ 42 + rm.toNat * 2 ^ 37 + mode.toNat * 2 ^ 34 + st.toNat * 2 ^ 32 + sa.toNat * 2 ^ 26 + rest.toNat := by
  simp only [rWord, append_toNat]
  omega

theorem rWord_slice_op (op : Opcode) (rd : RegNum) (rn : RegNum) (rm : RegNum) (mode : BitVec 3) (st : BitVec 2) (sa : BitVec 6) (rest : BitVec 26) :
    (rWord op rd rn rm mode st sa rest).extractLsb' 52 12 = op := by
  have := op.isLt
  have := rd.isLt
  have := rn.isLt
  have := rm.isLt
  have := mode.isLt
  have := st.isLt
  have := sa.isLt
  have := rest.isLt
  apply BitVec.eq_of_toNat_eq
  rw [extractLsb'_toNat_div, rWord_toNat]
  omega

theorem rWord_slice_rd (op : Opcode) (rd : RegNum) (rn : RegNum) (rm : RegNum) (mode : BitVec 3) (st : BitVec 2) (sa : BitVec 6) (rest : BitVec 26) :
    (rWord op rd rn rm mode st sa rest).extractLsb' 47 5 = rd := by
  have := op.isLt
  have := rd.isLt
  have := rn.isLt
  have := rm.isLt
  have := mode.isLt
  have := st.isLt
  have := sa.isLt
  have := rest.isLt
  apply BitVec.eq_of_toNat_eq
  rw [extractLsb'_toNat_div, rWord_toNat]
  omega

theorem rWord_slice_rn (op : Opcode) (rd : RegNum) (rn : RegNum) (rm : RegNum) (mode : BitVec 3) (st : BitVec 2) (sa : BitVec 6) (rest : BitVec 26) :
    (rWord op rd rn rm mode st sa rest).extractLsb' 42 5 = rn := by
  have := op.isLt
  have := rd.isLt
  have := rn.isLt
  have := rm.isLt
  have := mode.isLt
  have := st.isLt
  have := sa.isLt
  have := rest.isLt
  apply BitVec.eq_of_toNat_eq
  rw [extractLsb'_toNat_div, rWord_toNat]
  omega

theorem rWord_slice_rm (op : Opcode) (rd : RegNum) (rn : RegNum) (rm : RegNum) (mode : BitVec 3) (st : BitVec 2) (sa : BitVec 6) (rest : BitVec 26) :
    (rWord op rd rn rm mode st sa rest).extractLsb' 37 5 = rm := by
  have := op.isLt
  have := rd.isLt
  have := rn.isLt
  have := rm.isLt
  have := mode.isLt
  have := st.isLt
  have := sa.isLt
  have := rest.isLt
  apply BitVec.eq_of_toNat_eq
  rw [extractLsb'_toNat_div, rWord_toNat]
  omega

theorem rWord_slice_mode (op : Opcode) (rd : RegNum) (rn : RegNum) (rm : RegNum) (mode : BitVec 3) (st : BitVec 2) (sa : BitVec 6) (rest : BitVec 26) :
    (rWord op rd rn rm mode st sa rest).extractLsb' 34 3 = mode := by
  have := op.isLt
  have := rd.isLt
  have := rn.isLt
  have := rm.isLt
  have := mode.isLt
  have := st.isLt
  have := sa.isLt
  have := rest.isLt
  apply BitVec.eq_of_toNat_eq
  rw [extractLsb'_toNat_div, rWord_toNat]
  omega

theorem rWord_slice_st (op : Opcode) (rd : RegNum) (rn : RegNum) (rm : RegNum) (mode : BitVec 3) (st : BitVec 2) (sa : BitVec 6) (rest : BitVec 26) :
    (rWord op rd rn rm mode st sa rest).extractLsb' 32 2 = st := by
  have := op.isLt
  have := rd.isLt
  have := rn.isLt
  have := rm.isLt
  have := mode.isLt
  have := st.isLt
  have := sa.isLt
  have := rest.isLt
  apply BitVec.eq_of_toNat_eq
  rw [extractLsb'_toNat_div, rWord_toNat]
  omega

theorem rWord_slice_sa (op : Opcode) (rd : RegNum) (rn : RegNum) (rm : RegNum) (mode : BitVec 3) (st : BitVec 2) (sa : BitVec 6) (rest : BitVec 26) :
    (rWord op rd rn rm mode st sa rest).extractLsb' 26 6 = sa := by
  have := op.isLt
  have := rd.isLt
  have := rn.isLt
  have := rm.isLt
  have := mode.isLt
  have := st.isLt
  have := sa.isLt
  have := rest.isLt
  apply BitVec.eq_of_toNat_eq
  rw [extractLsb'_toNat_div, rWord_toNat]
  omega

theorem rWord_slice_rest (op : Opcode) (rd : RegNum) (rn : RegNum) (rm : RegNum) (mode : BitVec 3) (st : BitVec 2) (sa : BitVec 6) (rest : BitVec 26) :
    (rWord op rd rn rm mode st sa rest).extractLsb' 0 26 = rest := by
  have := op.isLt
  have := rd.isLt
  have := rn.isLt
  have := rm.isLt
  have := mode.isLt
  have := st.isLt
  have := sa.isLt
  have := rest.isLt
  apply BitVec.eq_of_toNat_eq
  rw [extractLsb'_toNat_div, rWord_toNat]
  omega

/-- A word is its own pattern: the slices of `rWord` lose no bit. -/
theorem word_eq_rWord (w : Word) :
    w = rWord (w.extractLsb' 52 12) (w.extractLsb' 47 5) (w.extractLsb' 42 5) (w.extractLsb' 37 5) (w.extractLsb' 34 3) (w.extractLsb' 32 2) (w.extractLsb' 26 6) (w.extractLsb' 0 26) := by
  have := w.isLt
  apply BitVec.eq_of_toNat_eq
  rw [rWord_toNat]
  simp only [extractLsb'_toNat_div]
  omega

theorem iWord_toNat (op : Opcode) (rd : RegNum) (rn : RegNum) (ignored : BitVec 8) (imm : BitVec 34) :
    (iWord op rd rn ignored imm).toNat
      = op.toNat * 2 ^ 52 + rd.toNat * 2 ^ 47 + rn.toNat * 2 ^ 42 + ignored.toNat * 2 ^ 34 + imm.toNat := by
  simp only [iWord, append_toNat]
  omega

theorem iWord_slice_op (op : Opcode) (rd : RegNum) (rn : RegNum) (ignored : BitVec 8) (imm : BitVec 34) :
    (iWord op rd rn ignored imm).extractLsb' 52 12 = op := by
  have := op.isLt
  have := rd.isLt
  have := rn.isLt
  have := ignored.isLt
  have := imm.isLt
  apply BitVec.eq_of_toNat_eq
  rw [extractLsb'_toNat_div, iWord_toNat]
  omega

theorem iWord_slice_rd (op : Opcode) (rd : RegNum) (rn : RegNum) (ignored : BitVec 8) (imm : BitVec 34) :
    (iWord op rd rn ignored imm).extractLsb' 47 5 = rd := by
  have := op.isLt
  have := rd.isLt
  have := rn.isLt
  have := ignored.isLt
  have := imm.isLt
  apply BitVec.eq_of_toNat_eq
  rw [extractLsb'_toNat_div, iWord_toNat]
  omega

theorem iWord_slice_rn (op : Opcode) (rd : RegNum) (rn : RegNum) (ignored : BitVec 8) (imm : BitVec 34) :
    (iWord op rd rn ignored imm).extractLsb' 42 5 = rn := by
  have := op.isLt
  have := rd.isLt
  have := rn.isLt
  have := ignored.isLt
  have := imm.isLt
  apply BitVec.eq_of_toNat_eq
  rw [extractLsb'_toNat_div, iWord_toNat]
  omega

theorem iWord_slice_ignored (op : Opcode) (rd : RegNum) (rn : RegNum) (ignored : BitVec 8) (imm : BitVec 34) :
    (iWord op rd rn ignored imm).extractLsb' 34 8 = ignored := by
  have := op.isLt
  have := rd.isLt
  have := rn.isLt
  have := ignored.isLt
  have := imm.isLt
  apply BitVec.eq_of_toNat_eq
  rw [extractLsb'_toNat_div, iWord_toNat]
  omega

theorem iWord_slice_imm (op : Opcode) (rd : RegNum) (rn : RegNum) (ignored : BitVec 8) (imm : BitVec 34) :
    (iWord op rd rn ignored imm).extractLsb' 0 34 = imm := by
  have := op.isLt
  have := rd.isLt
  have := rn.isLt
  have := ignored.isLt
  have := imm.isLt
  apply BitVec.eq_of_toNat_eq
  rw [extractLsb'_toNat_div, iWord_toNat]
  omega

/-- A word is its own pattern: the slices of `iWord` lose no bit. -/
theorem word_eq_iWord (w : Word) :
    w = iWord (w.extractLsb' 52 12) (w.extractLsb' 47 5) (w.extractLsb' 42 5) (w.extractLsb' 34 8) (w.extractLsb' 0 34) := by
  have := w.isLt
  apply BitVec.eq_of_toNat_eq
  rw [iWord_toNat]
  simp only [extractLsb'_toNat_div]
  omega

theorem bWord_toNat (op : Opcode) (ignored : BitVec 4) (off : BitVec 48) :
    (bWord op ignored off).toNat
      = op.toNat * 2 ^ 52 + ignored.toNat * 2 ^ 48 + off.toNat := by
  simp only [bWord, append_toNat]
  omega

theorem bWord_slice_op (op : Opcode) (ignored : BitVec 4) (off : BitVec 48) :
    (bWord op ignored off).extractLsb' 52 12 = op := by
  have := op.isLt
  have := ignored.isLt
  have := off.isLt
  apply BitVec.eq_of_toNat_eq
  rw [extractLsb'_toNat_div, bWord_toNat]
  omega

theorem bWord_slice_ignored (op : Opcode) (ignored : BitVec 4) (off : BitVec 48) :
    (bWord op ignored off).extractLsb' 48 4 = ignored := by
  have := op.isLt
  have := ignored.isLt
  have := off.isLt
  apply BitVec.eq_of_toNat_eq
  rw [extractLsb'_toNat_div, bWord_toNat]
  omega

theorem bWord_slice_off (op : Opcode) (ignored : BitVec 4) (off : BitVec 48) :
    (bWord op ignored off).extractLsb' 0 48 = off := by
  have := op.isLt
  have := ignored.isLt
  have := off.isLt
  apply BitVec.eq_of_toNat_eq
  rw [extractLsb'_toNat_div, bWord_toNat]
  omega

/-- A word is its own pattern: the slices of `bWord` lose no bit. -/
theorem word_eq_bWord (w : Word) :
    w = bWord (w.extractLsb' 52 12) (w.extractLsb' 48 4) (w.extractLsb' 0 48) := by
  have := w.isLt
  apply BitVec.eq_of_toNat_eq
  rw [bWord_toNat]
  simp only [extractLsb'_toNat_div]
  omega

theorem mWord_toNat (op : Opcode) (rd : RegNum) (rn : RegNum) (ignored : BitVec 10) (off : BitVec 32) :
    (mWord op rd rn ignored off).toNat
      = op.toNat * 2 ^ 52 + rd.toNat * 2 ^ 47 + rn.toNat * 2 ^ 42 + ignored.toNat * 2 ^ 32 + off.toNat := by
  simp only [mWord, append_toNat]
  omega

theorem mWord_slice_op (op : Opcode) (rd : RegNum) (rn : RegNum) (ignored : BitVec 10) (off : BitVec 32) :
    (mWord op rd rn ignored off).extractLsb' 52 12 = op := by
  have := op.isLt
  have := rd.isLt
  have := rn.isLt
  have := ignored.isLt
  have := off.isLt
  apply BitVec.eq_of_toNat_eq
  rw [extractLsb'_toNat_div, mWord_toNat]
  omega

theorem mWord_slice_rd (op : Opcode) (rd : RegNum) (rn : RegNum) (ignored : BitVec 10) (off : BitVec 32) :
    (mWord op rd rn ignored off).extractLsb' 47 5 = rd := by
  have := op.isLt
  have := rd.isLt
  have := rn.isLt
  have := ignored.isLt
  have := off.isLt
  apply BitVec.eq_of_toNat_eq
  rw [extractLsb'_toNat_div, mWord_toNat]
  omega

theorem mWord_slice_rn (op : Opcode) (rd : RegNum) (rn : RegNum) (ignored : BitVec 10) (off : BitVec 32) :
    (mWord op rd rn ignored off).extractLsb' 42 5 = rn := by
  have := op.isLt
  have := rd.isLt
  have := rn.isLt
  have := ignored.isLt
  have := off.isLt
  apply BitVec.eq_of_toNat_eq
  rw [extractLsb'_toNat_div, mWord_toNat]
  omega

theorem mWord_slice_ignored (op : Opcode) (rd : RegNum) (rn : RegNum) (ignored : BitVec 10) (off : BitVec 32) :
    (mWord op rd rn ignored off).extractLsb' 32 10 = ignored := by
  have := op.isLt
  have := rd.isLt
  have := rn.isLt
  have := ignored.isLt
  have := off.isLt
  apply BitVec.eq_of_toNat_eq
  rw [extractLsb'_toNat_div, mWord_toNat]
  omega

theorem mWord_slice_off (op : Opcode) (rd : RegNum) (rn : RegNum) (ignored : BitVec 10) (off : BitVec 32) :
    (mWord op rd rn ignored off).extractLsb' 0 32 = off := by
  have := op.isLt
  have := rd.isLt
  have := rn.isLt
  have := ignored.isLt
  have := off.isLt
  apply BitVec.eq_of_toNat_eq
  rw [extractLsb'_toNat_div, mWord_toNat]
  omega

/-- A word is its own pattern: the slices of `mWord` lose no bit. -/
theorem word_eq_mWord (w : Word) :
    w = mWord (w.extractLsb' 52 12) (w.extractLsb' 47 5) (w.extractLsb' 42 5) (w.extractLsb' 32 10) (w.extractLsb' 0 32) := by
  have := w.isLt
  apply BitVec.eq_of_toNat_eq
  rw [mWord_toNat]
  simp only [extractLsb'_toNat_div]
  omega

/-- `buildR` fills its pattern, with 0 in every bit it does not pack. -/
theorem buildR_eq_pattern (op : Opcode) (rd rn rm : RegIn) :
    buildR op rd rn rm = rWord op (truncateToWidth rd 5) (truncateToWidth rn 5) (truncateToWidth rm 5) 0#3 0#2 0#6 0#26 := by
  have b0 := op.isLt
  have b1 := (truncateToWidth rd 5).isLt
  have b2 := (truncateToWidth rn 5).isLt
  have b3 := (truncateToWidth rm 5).isLt
  have e0 := packAt_toNat op 52 (by omega)
  have e1 := packAt_toNat (truncateToWidth rd 5) 47 (by omega)
  have e2 := packAt_toNat (truncateToWidth rn 5) 42 (by omega)
  have e3 := packAt_toNat (truncateToWidth rm 5) 37 (by omega)
  have f1 := or_toNat_of_low_zero (packAt op 52) (packAt (truncateToWidth rd 5) 47) 52 (by omega) (by omega)
  have f2 := or_toNat_of_low_zero (packAt op 52 ||| packAt (truncateToWidth rd 5) 47) (packAt (truncateToWidth rn 5) 42) 47 (by omega) (by omega)
  have f3 := or_toNat_of_low_zero (packAt op 52 ||| packAt (truncateToWidth rd 5) 47 ||| packAt (truncateToWidth rn 5) 42) (packAt (truncateToWidth rm 5) 37) 42 (by omega) (by omega)
  apply BitVec.eq_of_toNat_eq
  rw [buildR, f3, f2, f1, e0, e1, e2, e3, rWord_toNat]
  simp

/-- `buildI` fills its pattern, with 0 in every bit it does not pack. -/
theorem buildI_eq_pattern (op : Opcode) (rd rn : RegIn) (imm : ValIn) :
    buildI op rd rn imm = iWord op (truncateToWidth rd 5) (truncateToWidth rn 5) 0#8 (truncateToWidth imm 34) := by
  have b0 := op.isLt
  have b1 := (truncateToWidth rd 5).isLt
  have b2 := (truncateToWidth rn 5).isLt
  have b3 := (truncateToWidth imm 34).isLt
  have e0 := packAt_toNat op 52 (by omega)
  have e1 := packAt_toNat (truncateToWidth rd 5) 47 (by omega)
  have e2 := packAt_toNat (truncateToWidth rn 5) 42 (by omega)
  have e3 := packAt_toNat (truncateToWidth imm 34) 0 (by omega)
  have f1 := or_toNat_of_low_zero (packAt op 52) (packAt (truncateToWidth rd 5) 47) 52 (by omega) (by omega)
  have f2 := or_toNat_of_low_zero (packAt op 52 ||| packAt (truncateToWidth rd 5) 47) (packAt (truncateToWidth rn 5) 42) 47 (by omega) (by omega)
  have f3 := or_toNat_of_low_zero (packAt op 52 ||| packAt (truncateToWidth rd 5) 47 ||| packAt (truncateToWidth rn 5) 42) (packAt (truncateToWidth imm 34) 0) 42 (by omega) (by omega)
  apply BitVec.eq_of_toNat_eq
  rw [buildI, f3, f2, f1, e0, e1, e2, e3, iWord_toNat]
  simp

/-- `buildB` fills its pattern, with 0 in every bit it does not pack. -/
theorem buildB_eq_pattern (op : Opcode) (offset : ValIn) :
    buildB op offset = bWord op 0#4 (truncateToWidth offset 48) := by
  have b0 := op.isLt
  have b1 := (truncateToWidth offset 48).isLt
  have e0 := packAt_toNat op 52 (by omega)
  have e1 := packAt_toNat (truncateToWidth offset 48) 0 (by omega)
  have f1 := or_toNat_of_low_zero (packAt op 52) (packAt (truncateToWidth offset 48) 0) 52 (by omega) (by omega)
  apply BitVec.eq_of_toNat_eq
  rw [buildB, f1, e0, e1, bWord_toNat]
  simp

/-- `buildM` fills its pattern, with 0 in every bit it does not pack. -/
theorem buildM_eq_pattern (op : Opcode) (rd rn : RegIn) (offset : ValIn) :
    buildM op rd rn offset = mWord op (truncateToWidth rd 5) (truncateToWidth rn 5) 0#10 (truncateToWidth offset 32) := by
  have b0 := op.isLt
  have b1 := (truncateToWidth rd 5).isLt
  have b2 := (truncateToWidth rn 5).isLt
  have b3 := (truncateToWidth offset 32).isLt
  have e0 := packAt_toNat op 52 (by omega)
  have e1 := packAt_toNat (truncateToWidth rd 5) 47 (by omega)
  have e2 := packAt_toNat (truncateToWidth rn 5) 42 (by omega)
  have e3 := packAt_toNat (truncateToWidth offset 32) 0 (by omega)
  have f1 := or_toNat_of_low_zero (packAt op 52) (packAt (truncateToWidth rd 5) 47) 52 (by omega) (by omega)
  have f2 := or_toNat_of_low_zero (packAt op 52 ||| packAt (truncateToWidth rd 5) 47) (packAt (truncateToWidth rn 5) 42) 47 (by omega) (by omega)
  have f3 := or_toNat_of_low_zero (packAt op 52 ||| packAt (truncateToWidth rd 5) 47 ||| packAt (truncateToWidth rn 5) 42) (packAt (truncateToWidth offset 32) 0) 42 (by omega) (by omega)
  apply BitVec.eq_of_toNat_eq
  rw [buildM, f3, f2, f1, e0, e1, e2, e3, mWord_toNat]
  simp

end Sys2Proof.Machine
end

