-- ==== Sys2Proof/Laws/Classifier.lean ====
section
/-! SUPPORT. Classification as a function of the two tag bits (R44, R71). -/

namespace Sys2Proof.Machine

/-- Masking with `FORMAT_MASK` keeps the tag and clears the operation number. -/
theorem and_formatMask (op : Opcode) : op &&& formatMask = op.extractLsb' 10 2 ++ 0#10 := by
  apply BitVec.eq_of_getLsbD_eq
  intro i hi
  rw [BitVec.getLsbD_and]
  refine Eq.trans ?_ (BitVec.getLsbD_append).symm
  interval_cases i <;> simp [formatMask]

theorem tag_append_injective (t u : Tag) : (t ++ 0#10 : Opcode) = u ++ 0#10 ↔ t = u := by
  constructor
  · intro h
    have e := congrArg BitVec.toNat h
    simp only [append_toNat] at e
    exact BitVec.eq_of_toNat_eq (by omega)
  · rintro rfl
    rfl

theorem tag_cases (t : Tag) : t = 0b00#2 ∨ t = 0b01#2 ∨ t = 0b10#2 ∨ t = 0b11#2 := by
  have := t.isLt
  have h : t.toNat = 0 ∨ t.toNat = 1 ∨ t.toNat = 2 ∨ t.toNat = 3 := by omega
  rcases h with h | h | h | h
  · exact .inl (BitVec.eq_of_toNat_eq h)
  · exact .inr (.inl (BitVec.eq_of_toNat_eq h))
  · exact .inr (.inr (.inl (BitVec.eq_of_toNat_eq h)))
  · exact .inr (.inr (.inr (BitVec.eq_of_toNat_eq h)))

/-- The specification of `format_tag_of`: the format its two tag bits select. -/
theorem formatTagOf_eq_formatOfTag (op : Opcode) : formatTagOf op = formatOfTag (op.extractLsb' 10 2) := by
  simp only [formatTagOf, and_formatMask]
  rcases tag_cases (op.extractLsb' 10 2) with h | h | h | h <;> rw [h] <;> decide

@[simp] theorem formatOfTag_formatNumber (f : Format) : formatOfTag (formatNumber f) = f := by
  cases f <;> rfl

@[simp] theorem formatNumber_formatOfTag (t : Tag) : formatNumber (formatOfTag t) = t := by
  rcases tag_cases t with rfl | rfl | rfl | rfl <;> decide

theorem slice_tag_append (t : Tag) (n : OperationNumber) : (t ++ n : Opcode).extractLsb' 10 2 = t := by
  have := t.isLt
  have := n.isLt
  apply BitVec.eq_of_toNat_eq
  rw [extractLsb'_toNat_div, append_toNat]
  omega

theorem slice_number_append (t : Tag) (n : OperationNumber) : (t ++ n : Opcode).extractLsb' 0 10 = n := by
  have := t.isLt
  have := n.isLt
  apply BitVec.eq_of_toNat_eq
  rw [extractLsb'_toNat_div, append_toNat]
  omega

theorem append_slices (op : Opcode) : (op.extractLsb' 10 2 ++ op.extractLsb' 0 10 : Opcode) = op := by
  have := op.isLt
  apply BitVec.eq_of_toNat_eq
  rw [append_toNat]
  simp only [extractLsb'_toNat_div]
  omega

/-- The tag bits of a word are those of its opcode field. -/
theorem tag_slice_of_word (w : Word) : w.extractLsb' 62 2 = (w.extractLsb' 52 12).extractLsb' 10 2 := by
  have := w.isLt
  apply BitVec.eq_of_toNat_eq
  simp only [extractLsb'_toNat_div]
  omega

/-- The operation number bits of a word are those of its opcode field. -/
theorem number_slice_of_word (w : Word) : w.extractLsb' 52 10 = (w.extractLsb' 52 12).extractLsb' 0 10 := by
  have := w.isLt
  apply BitVec.eq_of_toNat_eq
  simp only [extractLsb'_toNat_div]
  omega

/-- The specification of `make_opcode`: the tag over the operation number. -/
theorem makeOpcode_eq_append (t : Tag) (n : OperationNumber) : makeOpcode t n = t ++ n := by
  apply BitVec.eq_of_getLsbD_eq
  intro i hi
  rw [makeOpcode, BitVec.getLsbD_or]
  refine Eq.trans ?_ (BitVec.getLsbD_append).symm
  by_cases h : i < 10
  · simp [h, hi]
  · simp [h, hi, BitVec.getLsbD_of_ge n i (by omega)]

theorem operationNumberOf_eq_slice (op : Opcode) : operationNumberOf op = op.extractLsb' 0 10 := by
  apply BitVec.eq_of_toNat_eq
  rw [extractLsb'_toNat_div]
  simp only [operationNumberOf, BitVec.toNat_setWidth, BitVec.toNat_and, BitVec.toNat_ofNat]
  rw [show (1023 % 2 ^ 12 : Nat) = 2 ^ 10 - 1 by norm_num, Nat.and_two_pow_sub_one_eq_mod]
  omega

/-- The format of a word is the one its bits [63:62] select. -/
theorem formatOfWord_eq_formatOfTag (w : Word) : formatOfWord w = formatOfTag (w.extractLsb' 62 2) := by
  have := w.isLt
  rw [formatOfWord, formatTagOf_eq_formatOfTag, fieldAt_eq_extractLsb' _ _ _ (by decide)]
  congr 1
  apply BitVec.eq_of_toNat_eq
  simp only [extractLsb'_toNat_div]
  omega

end Sys2Proof.Machine
end

