-- ==== Sys2Proof/Laws/State.lean ====
section
/-! SUPPORT. One lemma per field of State per operation over the ports, true by rfl, so that no proof unfolds a
record update. -/

namespace Sys2Proof.Machine

variable (s : State)

@[simp] theorem State.presentWord_params (w : Word) : (s.presentWord w).params = s.params := rfl
@[simp] theorem State.presentWord_pending (w : Word) : (s.presentWord w).pending = s.pending := rfl
@[simp] theorem State.presentWord_word (w : Word) : (s.presentWord w).word = w := rfl
@[simp] theorem State.presentWord_accessors (w : Word) : (s.presentWord w).accessors = decodeAll w := rfl
@[simp] theorem State.presentWord_routed (w : Word) : (s.presentWord w).routed = routeDecode w := rfl
@[simp] theorem State.presentWord_classifierIn (w : Word) : (s.presentWord w).classifierIn = opcodeOf w := rfl
@[simp] theorem State.presentWord_classifierOut (w : Word) : (s.presentWord w).classifierOut = classify (opcodeOf w) := rfl
@[simp] theorem State.presentWord_composeTag (w : Word) : (s.presentWord w).composeTag = s.composeTag := rfl
@[simp] theorem State.presentWord_composeNumber (w : Word) : (s.presentWord w).composeNumber = s.composeNumber := rfl
@[simp] theorem State.presentWord_composed (w : Word) : (s.presentWord w).composed = s.composed := rfl
@[simp] theorem State.presentWord_encoderIn (w : Word) : (s.presentWord w).encoderIn = s.encoderIn := rfl
@[simp] theorem State.presentWord_encoderOut (w : Word) : (s.presentWord w).encoderOut = s.encoderOut := rfl

@[simp] theorem State.presentOpcode_params (op : Opcode) : (s.presentOpcode op).params = s.params := rfl
@[simp] theorem State.presentOpcode_pending (op : Opcode) : (s.presentOpcode op).pending = s.pending := rfl
@[simp] theorem State.presentOpcode_word (op : Opcode) : (s.presentOpcode op).word = s.word := rfl
@[simp] theorem State.presentOpcode_accessors (op : Opcode) : (s.presentOpcode op).accessors = s.accessors := rfl
@[simp] theorem State.presentOpcode_routed (op : Opcode) : (s.presentOpcode op).routed = s.routed := rfl
@[simp] theorem State.presentOpcode_classifierIn (op : Opcode) : (s.presentOpcode op).classifierIn = op := rfl
@[simp] theorem State.presentOpcode_classifierOut (op : Opcode) : (s.presentOpcode op).classifierOut = classify op := rfl
@[simp] theorem State.presentOpcode_composeTag (op : Opcode) : (s.presentOpcode op).composeTag = s.composeTag := rfl
@[simp] theorem State.presentOpcode_composeNumber (op : Opcode) : (s.presentOpcode op).composeNumber = s.composeNumber := rfl
@[simp] theorem State.presentOpcode_composed (op : Opcode) : (s.presentOpcode op).composed = s.composed := rfl
@[simp] theorem State.presentOpcode_encoderIn (op : Opcode) : (s.presentOpcode op).encoderIn = s.encoderIn := rfl
@[simp] theorem State.presentOpcode_encoderOut (op : Opcode) : (s.presentOpcode op).encoderOut = s.encoderOut := rfl

@[simp] theorem State.presentParts_params (tag : Tag) (n : OperationNumber) : (s.presentParts tag n).params = s.params := rfl
@[simp] theorem State.presentParts_pending (tag : Tag) (n : OperationNumber) : (s.presentParts tag n).pending = s.pending := rfl
@[simp] theorem State.presentParts_word (tag : Tag) (n : OperationNumber) : (s.presentParts tag n).word = s.word := rfl
@[simp] theorem State.presentParts_accessors (tag : Tag) (n : OperationNumber) : (s.presentParts tag n).accessors = s.accessors := rfl
@[simp] theorem State.presentParts_routed (tag : Tag) (n : OperationNumber) : (s.presentParts tag n).routed = s.routed := rfl
@[simp] theorem State.presentParts_classifierIn (tag : Tag) (n : OperationNumber) : (s.presentParts tag n).classifierIn = s.classifierIn := rfl
@[simp] theorem State.presentParts_classifierOut (tag : Tag) (n : OperationNumber) : (s.presentParts tag n).classifierOut = s.classifierOut := rfl
@[simp] theorem State.presentParts_composeTag (tag : Tag) (n : OperationNumber) : (s.presentParts tag n).composeTag = tag := rfl
@[simp] theorem State.presentParts_composeNumber (tag : Tag) (n : OperationNumber) : (s.presentParts tag n).composeNumber = n := rfl
@[simp] theorem State.presentParts_composed (tag : Tag) (n : OperationNumber) : (s.presentParts tag n).composed = makeOpcode tag n := rfl
@[simp] theorem State.presentParts_encoderIn (tag : Tag) (n : OperationNumber) : (s.presentParts tag n).encoderIn = s.encoderIn := rfl
@[simp] theorem State.presentParts_encoderOut (tag : Tag) (n : OperationNumber) : (s.presentParts tag n).encoderOut = s.encoderOut := rfl

@[simp] theorem State.presentOperands_params (x : EncoderIn) : (s.presentOperands x).params = s.params := rfl
@[simp] theorem State.presentOperands_pending (x : EncoderIn) : (s.presentOperands x).pending = s.pending := rfl
@[simp] theorem State.presentOperands_word (x : EncoderIn) : (s.presentOperands x).word = s.word := rfl
@[simp] theorem State.presentOperands_accessors (x : EncoderIn) : (s.presentOperands x).accessors = s.accessors := rfl
@[simp] theorem State.presentOperands_routed (x : EncoderIn) : (s.presentOperands x).routed = s.routed := rfl
@[simp] theorem State.presentOperands_classifierIn (x : EncoderIn) : (s.presentOperands x).classifierIn = s.classifierIn := rfl
@[simp] theorem State.presentOperands_classifierOut (x : EncoderIn) : (s.presentOperands x).classifierOut = s.classifierOut := rfl
@[simp] theorem State.presentOperands_composeTag (x : EncoderIn) : (s.presentOperands x).composeTag = s.composeTag := rfl
@[simp] theorem State.presentOperands_composeNumber (x : EncoderIn) : (s.presentOperands x).composeNumber = s.composeNumber := rfl
@[simp] theorem State.presentOperands_composed (x : EncoderIn) : (s.presentOperands x).composed = s.composed := rfl
@[simp] theorem State.presentOperands_encoderIn (x : EncoderIn) : (s.presentOperands x).encoderIn = x := rfl
@[simp] theorem State.presentOperands_encoderOut (x : EncoderIn) : (s.presentOperands x).encoderOut = driveEncoder x := rfl

@[simp] theorem State.offerWord_params (nbits w : Nat) : (s.offerWord nbits w).params = s.params := rfl
@[simp] theorem State.offerWord_pending (nbits w : Nat) : (s.offerWord nbits w).pending = .decode (BitVec.ofNat 64 (w % 2 ^ nbits)) :: s.pending := rfl
@[simp] theorem State.offerWord_word (nbits w : Nat) : (s.offerWord nbits w).word = s.word := rfl
@[simp] theorem State.offerWord_accessors (nbits w : Nat) : (s.offerWord nbits w).accessors = s.accessors := rfl
@[simp] theorem State.offerWord_routed (nbits w : Nat) : (s.offerWord nbits w).routed = s.routed := rfl
@[simp] theorem State.offerWord_classifierIn (nbits w : Nat) : (s.offerWord nbits w).classifierIn = s.classifierIn := rfl
@[simp] theorem State.offerWord_classifierOut (nbits w : Nat) : (s.offerWord nbits w).classifierOut = s.classifierOut := rfl
@[simp] theorem State.offerWord_composeTag (nbits w : Nat) : (s.offerWord nbits w).composeTag = s.composeTag := rfl
@[simp] theorem State.offerWord_composeNumber (nbits w : Nat) : (s.offerWord nbits w).composeNumber = s.composeNumber := rfl
@[simp] theorem State.offerWord_composed (nbits w : Nat) : (s.offerWord nbits w).composed = s.composed := rfl
@[simp] theorem State.offerWord_encoderIn (nbits w : Nat) : (s.offerWord nbits w).encoderIn = s.encoderIn := rfl
@[simp] theorem State.offerWord_encoderOut (nbits w : Nat) : (s.offerWord nbits w).encoderOut = s.encoderOut := rfl

end Sys2Proof.Machine
end

