-- ==== Sys2Proof/Laws/Ops.lean ====
section
/-! SUPPORT. What the shared operations can do, said once: `exec` of any row presents the row's word; taking an
invocation; what a step can be; what serving an invocation leaves on the ports. -/

namespace Sys2Proof.Machine

/-- Every row of the table presents its own word to the decode-side ports and answers a next state. -/
theorem exec_presents_the_word (i : Instr) (s : State) :
    exec i s = .next (s.presentWord (encode s.params i)) := by
  cases i <;> rfl

theorem takeInvocation_nil (s : State) (h : s.pending = []) : s.takeInvocation = none := by
  simp [State.takeInvocation, h]

theorem takeInvocation_cons (s : State) (inv : Invocation) (rest : List Invocation)
    (h : s.pending = inv :: rest) : s.takeInvocation = some (inv, { s with pending := rest }) := by
  simp [State.takeInvocation, h]

theorem step_idle (s : State) (h : s.pending = []) : step s = .next s := by
  simp [step, takeInvocation_nil s h]

/-- A step with an invocation pending: a word is presented as the instruction it decodes to; anything else is
served as it is. -/
theorem step_cons (s : State) (inv : Invocation) (rest : List Invocation) (h : s.pending = inv :: rest) :
    step s = .next (match inv with
      | .decode w => ({ s with pending := rest } : State).presentWord (encode s.params (decodeWord s.params w))
      | other => ({ s with pending := rest } : State).serve other) := by
  rw [step, takeInvocation_cons s inv rest h]
  cases inv <;> simp only [exec_presents_the_word]

/-- Serving an invocation leaves its own result on its output ports (R36). -/
theorem observe_serve (s : State) (inv : Invocation) : (s.serve inv).observe inv = resultOf inv := by
  cases inv <;> rfl

@[simp] theorem serve_params (s : State) (inv : Invocation) : (s.serve inv).params = s.params := by
  cases inv <;> rfl

@[simp] theorem serve_pending (s : State) (inv : Invocation) : (s.serve inv).pending = s.pending := by
  cases inv <;> rfl

/-- Serving reads no parameter. -/
theorem serve_with_params (s : State) (inv : Invocation) (q : Params) :
    ({ s with params := q } : State).serve inv = { s.serve inv with params := q } := by
  cases inv <;> rfl

end Sys2Proof.Machine
end

