-- ==== Sys2Proof/Laws/PerInstr.lean ====
section
/-! SUPPORT. Lemma families with one lemma per constructor of Instr (LAWS.json). -/

namespace Sys2Proof.Laws.EncodeFormat

open Sys2Proof.Machine

/-- Under well-formed parameters the word of an instruction is of the instruction's format (R44, R6). -/
def Statement (i : Instr) : Prop :=
  ∀ p : Params, p.tagsAgree = true → formatOfWord (encode p i) = i.format

theorem tag_of_word (w : Word) (op : Opcode) (h : w.extractLsb' 52 12 = op) :
    formatOfWord w = formatOfTag (op.extractLsb' 10 2) := by
  rw [formatOfWord, fieldAt_eq_extractLsb' _ _ _ (by decide), h, formatTagOf_eq_formatOfTag]

theorem rFormat (n : OperationNumber) (rd rn rm : RegNum) (mode : BitVec 3) (st : BitVec 2) (sa : BitVec 6)
    (rest : BitVec 26) : Statement (.rFormat n rd rn rm mode st sa rest) := by
  intro p _
  rw [encode, tag_of_word _ _ (rWord_slice_op _ _ _ _ _ _ _ _), slice_tag_append]
  rfl

theorem iFormat (n : OperationNumber) (rd rn : RegNum) (ignored : BitVec 8) (imm : BitVec 34) :
    Statement (.iFormat n rd rn ignored imm) := by
  intro p _
  rw [encode, tag_of_word _ _ (iWord_slice_op _ _ _ _ _), slice_tag_append]
  rfl

theorem bFormat (n : OperationNumber) (ignored : BitVec 4) (off : BitVec 48) :
    Statement (.bFormat n ignored off) := by
  intro p _
  rw [encode, tag_of_word _ _ (bWord_slice_op _ _ _), slice_tag_append]
  rfl

theorem mFormat (n : OperationNumber) (rd rn : RegNum) (ignored : BitVec 10) (off : BitVec 32) :
    Statement (.mFormat n rd rn ignored off) := by
  intro p _
  rw [encode, tag_of_word _ _ (mWord_slice_op _ _ _ _ _), slice_tag_append]
  rfl

theorem addReg (rd rn rm : RegNum) (mode : BitVec 3) (st : BitVec 2) (sa : BitVec 6) (rest : BitVec 26) :
    Statement (.addReg rd rn rm mode st sa rest) := by
  intro p h
  simp only [Params.tagsAgree, Bool.and_eq_true, beq_iff_eq] at h
  rw [encode, tag_of_word _ _ (rWord_slice_op _ _ _ _ _ _ _ _), h.1.1]
  rfl

theorem b (ignored : BitVec 4) (off : BitVec 48) : Statement (.b ignored off) := by
  intro p h
  simp only [Params.tagsAgree, Bool.and_eq_true, beq_iff_eq] at h
  rw [encode, tag_of_word _ _ (bWord_slice_op _ _ _), h.1.2]
  rfl

theorem ldr (rd rn : RegNum) (ignored : BitVec 10) (off : BitVec 32) : Statement (.ldr rd rn ignored off) := by
  intro p h
  simp only [Params.tagsAgree, Bool.and_eq_true, beq_iff_eq] at h
  rw [encode, tag_of_word _ _ (mWord_slice_op _ _ _ _ _), h.2]
  rfl

end Sys2Proof.Laws.EncodeFormat
end

