-- ==== Sys2Proof/Laws/Router.lean ====
section
/-! SUPPORT. What the encode-side ports carry, one lemma per port, and what the routed decode of a word is once its
opcode is known. -/

namespace Sys2Proof.Machine

@[simp] theorem driveEncoder_word (x : EncoderIn) : (driveEncoder x).word = buildSelected x := rfl

@[simp] theorem driveEncoder_routedWord (x : EncoderIn) :
    (driveEncoder x).routedWord = encodeRouted x.op x.rd x.rn x.rm x.imm x.boffset x.moffset := rfl

@[simp] theorem driveEncoder_builderMismatch (x : EncoderIn) :
    (driveEncoder x).builderMismatch = builderMismatch x.builderSel x.op := rfl

@[simp] theorem driveEncoder_operandOverflow (x : EncoderIn) :
    (driveEncoder x).operandOverflow = operandOverflow x := rfl

/-- Which builder the shared output carries, by the format `builder_sel` names (R12). -/
theorem buildSelected_cases (x : EncoderIn) :
    (formatOfTag x.builderSel = .R ∧ buildSelected x = buildR x.op x.rd x.rn x.rm)
    ∨ (formatOfTag x.builderSel = .I ∧ buildSelected x = buildI x.op x.rd x.rn x.imm)
    ∨ (formatOfTag x.builderSel = .B ∧ buildSelected x = buildB x.op x.boffset)
    ∨ (formatOfTag x.builderSel = .M ∧ buildSelected x = buildM x.op x.rd x.rn x.moffset) := by
  cases h : formatOfTag x.builderSel <;> simp [buildSelected, h]

/-- The routed decode of a word whose opcode field is `op`: the variant of `op`'s format, its fields as slices. -/
theorem decodeRouted_of_opcode (w : Word) (op : Opcode) (h : w.extractLsb' 52 12 = op) :
    decodeRouted w = (match formatTagOf op with
      | .R => .R op (w.extractLsb' 47 5) (w.extractLsb' 42 5) (w.extractLsb' 37 5) (w.extractLsb' 32 2)
          (w.extractLsb' 26 6)
      | .I => .I op (w.extractLsb' 47 5) (w.extractLsb' 42 5) (w.extractLsb' 0 34)
      | .B => .B op (w.extractLsb' 0 48)
      | .M => .M op (w.extractLsb' 47 5) (w.extractLsb' 42 5) (w.extractLsb' 0 32)) := by
  have format : formatOfTag (tagOf w) = formatTagOf op := by
    rw [tagOf_eq_slice, tag_slice_of_word, h, formatTagOf_eq_formatOfTag]
  rw [decodeRouted, format]
  cases formatTagOf op <;>
    simp only [opcodeOf_eq_slice, h, rdOf_eq_slice, rnOf_eq_slice, rmOf_eq_slice, immediateOf_eq_slice,
      branchOffsetOf_eq_slice, memoryOffsetOf_eq_slice, shiftTypeOf_eq_slice, shiftAmountOf_eq_slice]

end Sys2Proof.Machine
end

