-- ==== Sys2Proof/Tests/Slice0.lean ====
section
/-! SUPPORT. Own tests, each a named theorem.  Expected values are those of spec/95_test_vectors.md (the vector's
name stands in the docstring) or are written out by hand from the patterns of R125 to R131; none is an answer of
the model copied back.  The last part shows, for every statement with hypotheses, a state and operands that meet
them all. -/

namespace Sys2Proof.Tests

open Sys2Proof.Machine

/-! ### Helpers -/

/-- The parameters of R6's default column. -/
def defaults : Params := Config.defaultParams

/-- The state after the first step, when the machine is handed one word right after reset. -/
def afterWord (w : Nat) : Option State :=
  match step (State.reset.withFetchWord 64 w) with
  | .next t => some t
  | .fault _ => none
  | .refused _ => none

/-- The state after one step that serves one invocation right after reset. -/
def afterInvocation (inv : Invocation) : Option State :=
  match step { State.reset with pending := [inv] } with
  | .next t => some t
  | .fault _ => none
  | .refused _ => none

/-- Consumer parameters of a consumer that reads 0x400's immediate as signed and gives 0x200 a shifted operand;
they serve these tests only and no value of them is the spec's. -/
def someConsumer : ConsumerParams :=
  { shiftedOperations := [0x200], signedImmediates := [0x400], memoryOffsetSigned := true, modeSemantics := [((0xD00, 0), "C")]
    shiftTypeNames := [(0, "A"), (1, "B")], conditionNames := [], memoryModeNames := []
    wordByteOrder := .leastSignificantFirst }

/-! ### Decoding: words written out field by field, most significant bit first, from R125 to R131 -/

/-- R125; the word is DC3's 0x0123456789ABCDEF. -/
theorem test_decode_rFormat :
    decodeTableWord 64 0b000000010010_00110_10001_01011_001_11_100010_01101010111100110111101111
      = some (.rFormat 0b0000010010 0b00110 0b10001 0b01011 0b001 0b11 0b100010 0b01101010111100110111101111) := by
  decide

/-- R126; the word of EI5 with the ignored bits [41:34] set to 10000001. -/
theorem test_decode_iFormat :
    decodeTableWord 64 0b010110100101_10001_00011_10000001_0100100011010001010110011110001001
      = some (.iFormat 0b0110100101 17 3 0b10000001 0x123456789) := by decide

/-- R127; the word of EB8 with the ignored bits [51:48] set to 1001. -/
theorem test_decode_bFormat :
    decodeTableWord 64 0b101111111111_1001_000100100011010001010110011110001001101010111100
      = some (.bFormat 0b1111111111 0b1001 0x123456789ABC) := by decide

/-- R128; the word of DC4, 0xFEDCBA9876543210. -/
theorem test_decode_mFormat :
    decodeTableWord 64 0b111111101101_11001_01110_1010011000_01110110010101000011001000010000
      = some (.mFormat 0b1111101101 25 14 0b1010011000 0x76543210) := by decide

/-- R129; the word of DC6: ADD_REG of X1, X2, X3 with every bit below `rm` but one set. -/
theorem test_decode_addReg :
    decodeTableWord 64 0b001000000000_00001_00010_00011_101_11_111111_11111111111111111111111111
      = some (.addReg 1 2 3 0b101 3 63 0x3FFFFFF) := by decide

/-- R130; the word of DC12: B of 7 words with a stray 5 in bits [51:48]. -/
theorem test_decode_b :
    decodeTableWord 64 0b100000000000_0101_000000000000000000000000000000000000000000000111
      = some (.b 5 7) := by decide

/-- R131; the word of S3: LDR of X9 and SP with offset 0x1000. -/
theorem test_decode_ldr :
    decodeTableWord 64 0b110100000000_01001_11111_0000000000_00000000000000000001000000000000
      = some (.ldr 9 31 0 0x1000) := by decide

/-- R6, R129: with other opcodes the same word is a generic one. -/
theorem test_decode_follows_the_parameters :
    decodeWord { defaults with opcAddReg := 0x201 } 0x2000886000000000 = .rFormat 0x200 1 2 3 0 0 0 0 := by decide

/-- R32: eight bytes of S1's word, least significant first, and one byte left over. -/
theorem test_decodeBytes_leastSignificantFirst :
    (decodeBytes defaults .leastSignificantFirst [0, 0, 0, 0, 0x60, 0x88, 0x00, 0x20, 0xEE]).toOption
      = some (.addReg 1 2 3 0 0 0 0, [0xEE]) := by decide

/-- R32: the same word, most significant byte first. -/
theorem test_decodeBytes_mostSignificantFirst :
    (decodeBytes defaults .mostSignificantFirst [0x20, 0x00, 0x88, 0x60, 0, 0, 0, 0]).toOption
      = some (.addReg 1 2 3 0 0 0 0, []) := by decide

/-- R32: an order that is neither of the two: the two halves of the word swapped, each most significant byte first. -/
theorem test_decodeBytes_swapped_halves :
    (decodeBytes defaults ⟨#v[3, 2, 1, 0, 7, 6, 5, 4], by decide⟩ [0, 0, 0x10, 0, 0xD0, 4, 0xFC, 0]).toOption
      = some (.ldr 9 31 0 0x1000, []) := by decide
/-- R32: the bytes of DC3's word in both plain orders. -/
theorem test_bytesOfWord :
    bytesOfWord .mostSignificantFirst 0x0123456789ABCDEF = [0x01, 0x23, 0x45, 0x67, 0x89, 0xAB, 0xCD, 0xEF]
      ∧ bytesOfWord .leastSignificantFirst 0x0123456789ABCDEF
        = [0xEF, 0xCD, 0xAB, 0x89, 0x67, 0x45, 0x23, 0x01] := by decide
/-- R31, R32: two stored words, and a rest that is no word. -/
theorem test_wordsOfStorage :
    (wordsOfStorage someConsumer [7, 0, 0, 0, 0, 0, 5, 0x80, 0, 0x10, 0, 0, 0, 0xFC, 4, 0xD0]).toOption
        = some [0x8005000000000007, 0xD004FC0000001000]
      ∧ (wordsOfStorage someConsumer [7, 0, 0, 0, 0, 0, 5, 0x80, 1]).toOption = none := by decide
/-- P1: a program placed from outside; its first word runs first. -/
theorem test_loadProgram :
    (State.reset.loadProgram [0x2000886000000000, 0xD004FC0000001000]).takeInvocation.map Prod.fst
      = some (.decode 0x2000886000000000) := by decide

/-! ### Well-formedness: each check refuses an ill-formed term -/

theorem test_wf_defaults : defaults.wf = true := by decide
theorem test_wf_refuses_addReg_tag : Params.wf { defaults with opcAddReg := 0x600 } = false := by decide
theorem test_wf_refuses_b_tag : Params.wf { defaults with opcB := 0xE00 } = false := by decide
theorem test_wf_refuses_ldr_tag : Params.wf { defaults with opcLdr := 0x100 } = false := by decide
theorem test_wf_refuses_shared_opcode :
    Params.wf { defaults with others := [⟨"X", 0x500⟩, ⟨"Y", 0xD00⟩] } = false := by decide
theorem test_wf_allows_other_operations :
    Params.wf { defaults with others := [⟨"X", 0x500⟩, ⟨"Y", 0xD01⟩] } = true := by decide
theorem test_wf_refuses_rFormat_of_addReg :
    (Instr.rFormat 0x200 0 0 0 0 0 0 0).wf defaults = false := by decide
theorem test_wf_refuses_bFormat_of_b : (Instr.bFormat 0 0 0).wf defaults = false := by decide
theorem test_wf_refuses_mFormat_of_ldr : (Instr.mFormat 0x100 0 0 0 0).wf defaults = false := by decide
theorem test_wf_refuses_two_names_of_a_shift_type :
    ConsumerParams.wf { someConsumer with shiftTypeNames := [(1, "A"), (1, "B")] } = false := by decide
theorem test_wf_refuses_two_names_of_a_condition :
    ConsumerParams.wf { someConsumer with conditionNames := [(1, "A"), (1, "B")] } = false := by decide
theorem test_wf_refuses_two_names_of_a_memory_mode :
    ConsumerParams.wf { someConsumer with memoryModeNames := [(1, "A"), (1, "B")] } = false := by decide

theorem test_wf_refuses_two_meanings_of_a_mode :
    ConsumerParams.wf { someConsumer with modeSemantics := [((0xD00, 1), "A"), ((0xD00, 1), "B")] } = false := by decide
theorem test_wf_someConsumer : ConsumerParams.wf someConsumer = true := by decide

/-! ### One step of each instruction, right after reset -/

/-- RT7 and R51: a generic R-type word; every R-type field of it, `mode` as raw bits. -/
theorem test_step_rFormat :
    (afterWord 0x0123456789ABCDEF).map (fun t => (t.routed.payload, t.accessors.mode))
      = some (.R 0x012 6 17 11 3 34, 1) := by decide

/-- RT10: a generic I-type word; the bits [41:34] are dropped by the routed decode and kept by `rm` and `mode`. -/
theorem test_step_iFormat :
    (afterWord 0x400003FC00000005).map (fun t => (t.routed.payload, t.accessors.rm, t.accessors.mode))
      = some (.I 0x400 0 0 5, 31, 7) := by decide

/-- RT17: a generic B-type word with every bit below the opcode set. -/
theorem test_step_bFormat :
    (afterWord 0xBFFFFFFFFFFFFFFF).map (fun t => (t.routed.payload, t.classifierOut.isBType))
      = some (.B 0xBFF 0xFFFFFFFFFFFF, true) := by decide

/-- RT6: a generic M-type word with every bit set. -/
theorem test_step_mFormat :
    (afterWord 0xFFFFFFFFFFFFFFFF).map (fun t => (t.routed.payload, t.accessors.shiftAmount))
      = some (.M 0xFFF 31 31 0xFFFFFFFF, 63) := by decide

/-- RT9, DC5: ADD_REG with shift sub-fields set by hand. -/
theorem test_step_addReg :
    (afterWord 0x2000886230000000).map (fun t => (t.routed.payload, t.accessors.extended))
      = some (.R 0x200 1 2 3 2 12, 0x230000000) := by decide

/-- RT12, DC12: B with a stray 5; the flat `rd` sees it, the payload does not. -/
theorem test_step_b :
    (afterWord 0x8005000000000007).map (fun t => (t.routed.payload, t.accessors.rd))
      = some (.B 0x800 7, 10) := by decide

/-- DC9: LDR of X9, SP; the flat `branch_offset` covers the register fields. -/
theorem test_step_ldr :
    (afterWord 0xD004FC0000001000).map (fun t => (t.routed.payload, t.accessors.branchOffset))
      = some (.M 0xD00 9 31 0x1000, 0xFC0000001000) := by decide

/-! ### Classifier, builders, router: vectors of the spec -/

/-- CL5, CL8. -/
theorem test_classify :
    classify 0x5A5 = ⟨1, false, true, false, false, 0x1A5⟩
      ∧ classify 0xABC = ⟨2, false, false, true, false, 0x2BC⟩ := by decide

/-- The `make_opcode` list of section 2.1, through a step. -/
theorem test_step_compose :
    (afterInvocation (.compose 1 0x1A5)).map State.composed = some 0x5A5
      ∧ (afterInvocation (.compose 2 0x3FF)).map State.composed = some 0xBFF := by decide

/-- ER3: registers wrap modulo 32. -/
theorem test_buildR_wraps : buildR 0x200 32 33 63 = 0x200007E000000000 := by decide
/-- EI2 and EI3: the mask is 34 bits wide (`90_conflicts.md` C1). -/
theorem test_buildI_masks :
    buildI 0x400 0 0 0x400000005 = 0x4000000000000005
      ∧ buildI 0x400 31 31 0x3FFFFFFFF = 0x400FFC03FFFFFFFF := by decide
/-- EB5: minus two as a 64-bit pattern. -/
theorem test_buildB_truncates : buildB 0x800 0xFFFFFFFFFFFFFFFE = 0x8000FFFFFFFFFFFE := by decide
/-- EM5: minus eight as a 64-bit pattern. -/
theorem test_buildM_truncates : buildM 0xD00 1 2 0xFFFFFFFFFFFFFFF8 = 0xD0008800FFFFFFF8 := by decide

/-- X3 through a step: the builder in use is `build_b`, the opcode R-type; the word is built, and reported. -/
theorem test_step_build_mismatch :
    (afterInvocation (.build ⟨2, 0x200, 0, 0, 0, 0, 0xFFFFFFFFFFFF, 0⟩)).map State.encoderOut
      = some ⟨0x2000FFFFFFFFFFFF, 0x2000000000000000, true, false⟩ := by decide
/-- RT3 through a step: `encode_routed` picks `build_b` and sees no other operand. -/
theorem test_step_route :
    (afterInvocation (.route 0x800 9 31 7 0x55 0x66 0x1000)).map State.encoderOut
      = some ⟨0x8000000000000066, 0x8000000000000066, false, false⟩ := by decide
/-- X4 and X5: words of the wrong builder, read by their opcode. -/
theorem test_mismatched_words :
    decodeRouted (buildI 0xD00 9 31 0x300001000) = .M 0xD00 9 31 0x1000
      ∧ decodeRouted (buildM 0x800 9 31 0x1000) = .B 0x800 0xFC0000001000 := by decide
/-- RT8: canonical form and re-encoding. -/
theorem test_reencode :
    canonical 0xFEDCBA9876543210 = false
      ∧ reencode (decodeRouted 0xFEDCBA9876543210) = 0xFEDCB80076543210 := by decide
/-- VA9 to VA14. -/
theorem test_overflow :
    overflowR 32 0 0 = true ∧ overflowI 31 31 0x3FFFFFFFF = false ∧ overflowI 0 0 0x400000000 = true
      ∧ overflowB 0xFFFFFFFFFFFF = false ∧ overflowB 0x1000000000000 = true
      ∧ overflowB 0xFFFFFFFFFFFFFFFE = true := by decide
/-- VA6, VA3. -/
theorem test_mismatch : builderMismatch 1 0xD00 = true ∧ builderMismatch 2 0x800 = false := by decide

/-- R42: the column "Mask in the word" is offset and width shifted, as the table prints it. -/
theorem test_field_masks :
    physicalFields.map Field.wordMask = [0xFFF0000000000000, 0x000F800000000000, 0x00007C0000000000,
      0x000003E000000000, 0x0000001C00000000, 0x00000003FFFFFFFF]
      ∧ Field.shiftType.wordMask = 0x0000000300000000 ∧ Field.shiftAmount.wordMask = 0x00000000FC000000 := by
  decide
/-- R110: the printed masks are the opcode's mask with those of the valid fields, and complements. -/
theorem test_meaningful_masks :
    ∀ f ∈ [Format.R, .I, .B, .M],
      meaningfulMask f = (validFields f).foldl (fun m g => m ||| g.wordMask) Field.opcode.wordMask
        ∧ ignoredMask f = ~~~ meaningfulMask f := by decide
/-- R110, second row: the masks of an operation with a shifted-register operand. -/
theorem test_shifted_masks :
    meaningfulMaskShifted
        = meaningfulMask .R ||| Field.shiftType.wordMask ||| Field.shiftAmount.wordMask
      ∧ ignoredMaskShifted = ~~~ meaningfulMaskShifted := by decide

/-! ### What a consumer computes -/

/-- SX4 to SX7, SX10, SX14. -/
theorem test_sext :
    sext (0x800000000000 : BitVec 48) = -140737488355328 ∧ sext (0xFFFFFFFFFFFE : BitVec 48) = -2
      ∧ sext (0xFFFFFFFD : BitVec 48) = 4294967293 ∧ sext (0x200000000 : BitVec 34) = -8589934592
      ∧ sext (0xFFFFFFF8 : BitVec 32) = -8 := by decide
/-- `00_scope.md` section 4: the same integer modulo 2^64. -/
theorem test_sextTo64 : sextTo64 (0x3FFFFFFFF : BitVec 34) = 0xFFFFFFFFFFFFFFFF := by decide
/-- P1, third word: `B #-2`. -/
theorem test_branchDisplacement : branchDisplacement 0x8000FFFFFFFFFFFE = -2 := by decide
/-- P2, third word, signed by the test's own parameter; EI5's word is not. -/
theorem test_immediateValue :
    immediateValue someConsumer 0x4000840200000000 = -8589934592
      ∧ immediateValue someConsumer 0x5A588C0123456789 = 0x123456789 := by decide
/-- EM5's word under both values of `MOFF_SIGNED`. -/
theorem test_memoryOffsetValue :
    memoryOffsetValue someConsumer 0xD0008800FFFFFFF8 = -8
      ∧ memoryOffsetValue { someConsumer with memoryOffsetSigned := false } 0xD0008800FFFFFFF8 = 0xFFFFFFF8 := by
  decide
/-- R51, R95: `mode` means what the parameter says, and nothing in DC12's B-type word, whose `mode` is 0 too. -/
theorem test_modeMeaning :
    modeMeaning someConsumer 0xD004FC0000001000 = some "C" ∧ modeMeaning someConsumer 0x8005000000000007 = none
      ∧ modeMeaning { someConsumer with modeSemantics := [] } 0xD004FC0000001000 = none := by decide
/-- P4, column `is_known`. -/
theorem test_isKnown :
    isKnown defaults 0x012 = false ∧ isKnown defaults 0x200 = true ∧ isKnown defaults 0x800 = true
      ∧ isKnown defaults 0x000 = false := by decide
/-- R16, S3: 31 is SP. -/
theorem test_registerName : registerName 31 = .sp ∧ registerName 30 = .x 30 ∧ registerName 0 = .x 0 := by decide

/-! ### Witnesses: for each statement with hypotheses, values that meet them all -/

/-- A state with one invocation of every kind still to make. -/
def busy : State :=
  { State.reset with
    pending := [.decode 0x2000886000000000, .classify 0xFFF, .compose 3 0x100, .build ⟨0, 0x400, 1, 2, 3, 0, 0, 0⟩,
      .route 0x800 0 0 0 0 7 0] }

/-- Parameters with other opcodes than the defaults, at the ends of the three ranges. -/
def otherParams : Params := { opcAddReg := 0x3FF, opcB := 0xBFF, opcLdr := 0xFFF, others := [⟨"OPI", 0x400⟩] }

/-- A well-formed instruction of each row under the defaults. -/
theorem witness_DecodeOfEncodeIsTheInstruction :
    defaults.wf = true ∧ otherParams.wf = true
      ∧ ∀ i ∈ [Instr.rFormat 0x3FF 31 31 31 7 3 63 0x3FFFFFF, .iFormat 0 0 0 0xFF 0x3FFFFFFFF,
          .bFormat 0x3FF 0xF 0xFFFFFFFFFFFF, .mFormat 0x3FF 31 31 0x3FF 0xFFFFFFFF, .addReg 0 31 0 7 0 63 1,
          .b 0xF 0, .ldr 31 0 0x3FF 0], i.wf defaults = true := by decide
theorem witness_EveryWordIsTheWordOfOneInstruction :
    defaults.wf = true ∧ (Instr.b 5 7).wf defaults = true ∧ encode defaults (.b 5 7) = 0x8005000000000007 := by
  decide
/-- Each of the three opcodes stands in some word, and the top one beside it in another. -/
theorem witness_NamedRowsAreTheirOpcodes :
    otherParams.wf = true ∧ opcodeOf 0x3FF0000000000000 = otherParams.opcAddReg
      ∧ opcodeOf 0xBFF0000000000000 = otherParams.opcB ∧ opcodeOf 0xFFF0000000000000 = otherParams.opcLdr
      ∧ opcodeOf 0x3FE0000000000000 ≠ otherParams.opcAddReg := by decide
theorem witness_StepRunsTheDecodedInstruction :
    busy.pending = .decode 0x2000886000000000 :: busy.pending.tail
      ∧ decodeWord busy.params 0x2000886000000000 = .addReg 1 2 3 0 0 0 0 := by decide
/-- One state for each clause: nothing pending, and each invocation at the head of the list. -/
theorem witness_StepDrivesThePortsOfTheInvocation :
    State.reset.pending = []
      ∧ { busy with pending := busy.pending.drop 1 }.pending = .classify 0xFFF :: busy.pending.drop 2
      ∧ { busy with pending := busy.pending.drop 2 }.pending = .compose 3 0x100 :: busy.pending.drop 3
      ∧ { busy with pending := busy.pending.drop 3 }.pending
          = .build ⟨0, 0x400, 1, 2, 3, 0, 0, 0⟩ :: busy.pending.drop 4
      ∧ { busy with pending := busy.pending.drop 4 }.pending = [.route 0x800 0 0 0 0 7 0] := by decide
theorem witness_AddRegWordDrivesTheDecodePorts :
    State.reset.params.opcAddReg.extractLsb' 10 2 = 0b00#2
      ∧ otherParams.opcAddReg.extractLsb' 10 2 = 0b00#2 := by decide
theorem witness_BWordDrivesTheDecodePorts :
    State.reset.params.opcB.extractLsb' 10 2 = 0b10#2 ∧ otherParams.opcB.extractLsb' 10 2 = 0b10#2 := by decide
theorem witness_LdrWordDrivesTheDecodePorts :
    State.reset.params.opcLdr.extractLsb' 10 2 = 0b11#2 ∧ otherParams.opcLdr.extractLsb' 10 2 = 0b11#2 := by decide
theorem witness_InstructionWordsLeaveTheOtherPortsAlone :
    exec (.b 5 7) busy = .next (busy.presentWord 0x8005000000000007) := rfl
/-- The invocation looked at stands third, first and last. -/
theorem witness_EveryInvocationReturnsItsOwnResult :
    busy.pending = busy.pending.take 2 ++ .compose 3 0x100 :: busy.pending.drop 3
      ∧ busy.pending = [] ++ .decode 0x2000886000000000 :: busy.pending.drop 1
      ∧ busy.pending = busy.pending.take 4 ++ .route 0x800 0 0 0 0 7 0 :: [] := by decide
theorem witness_ParametersReachNoPort : ∃ t, Host.Core.run Sys2Proof.core 5 busy = .next t := ⟨_, rfl⟩
theorem witness_StepKeepsOutputsCoherent : busy.Coherent ∧ ∃ t, step busy = .next t :=
  ⟨by unfold State.Coherent; decide, _, rfl⟩
theorem witness_StepKeepsThePortLaws : busy.PortLaws ∧ ∃ t, step busy = .next t :=
  ⟨by unfold State.PortLaws; decide, _, rfl⟩
/-- The premise inside the port laws: a state whose mismatch bit is 0, and one whose bit is 1. -/
theorem witness_PortLaws_mismatch_bit :
    State.reset.encoderOut.builderMismatch = false
      ∧ (afterInvocation (.build ⟨0, 0x400, 1, 2, 3, 0, 0, 0⟩)).map (fun t => t.encoderOut.builderMismatch)
          = some true := by decide
/-- Both premises at their edges: 2^34 - 1 fits, 2^34 is the first that does not. -/
theorem witness_TruncationIsTheValueModulo :
    (0x3FFFFFFFF : ValIn).toNat < 2 ^ 34 ∧ (0x400000000 : ValIn).toNat = 2 ^ 34 := by decide
/-- The first and the last opcode of each format; the same premises in four more statements. -/
theorem witness_formatTagOf :
    (formatTagOf 0x000 = .R ∧ formatTagOf 0x3FF = .R) ∧ (formatTagOf 0x400 = .I ∧ formatTagOf 0x7FF = .I)
      ∧ (formatTagOf 0x800 = .B ∧ formatTagOf 0xBFF = .B) ∧ (formatTagOf 0xC00 = .M ∧ formatTagOf 0xFFF = .M) := by
  decide
theorem witness_UnpackedBitsAreZero :
    formatTagOf 0x3FF = .R ∧ formatTagOf 0x400 = .I ∧ formatTagOf 0xBFF = .B ∧ formatTagOf 0xC00 = .M := by decide
theorem witness_RoutedRoundTrip :
    formatTagOf 0x000 = .R ∧ formatTagOf 0x7FF = .I ∧ formatTagOf 0x800 = .B ∧ formatTagOf 0xFFF = .M := by decide
theorem witness_FieldsAreIsolated :
    (formatTagOf 0x000 = .R ∧ formatTagOf 0x3FF = .R) ∧ (formatTagOf 0x400 = .I ∧ formatTagOf 0x7FF = .I)
      ∧ (formatTagOf 0x800 = .B ∧ formatTagOf 0xBFF = .B) ∧ (formatTagOf 0xC00 = .M ∧ formatTagOf 0xFFF = .M) :=
  witness_formatTagOf
theorem witness_RoutedEncodingMatchesItsOpcode :
    formatTagOf 0x200 = .R ∧ formatTagOf 0x5A5 = .I ∧ formatTagOf 0xABC = .B ∧ formatTagOf 0xD00 = .M := by decide
theorem witness_MismatchedWordsDecodeByTheirOpcode :
    formatTagOf 0x400 = .I ∧ formatTagOf 0x3FF = .R ∧ formatTagOf 0xBFF = .B ∧ formatTagOf 0xC00 = .M := by decide
/-- The largest operands of each builder keep the contract. -/
theorem witness_KeptContractGivesTheOperandsBack :
    ∀ x ∈ [(⟨0, 0x200, 31, 31, 31, 0, 0, 0⟩ : EncoderIn), ⟨1, 0x400, 31, 31, 0, 0x3FFFFFFFF, 0, 0⟩,
      ⟨2, 0x800, 0, 0, 0, 0, 0xFFFFFFFFFFFF, 0⟩, ⟨3, 0xD00, 31, 31, 0, 0, 0, 0xFFFFFFFF⟩],
      producerContract x = true := by decide
/-- Both ends of the range, and a negative displacement for the second clause. -/
theorem witness_BranchDisplacementsSurviveTheWord :
    (-2 ^ 47 ≤ (-140737488355328 : Int) ∧ (-140737488355328 : Int) < 2 ^ 47)
      ∧ (-2 ^ 47 ≤ (140737488355327 : Int) ∧ (140737488355327 : Int) < 2 ^ 47)
      ∧ (-140737488355328 : Int) < 0 := by decide
/-- A signed and an unsigned opcode, each with both ends of its range. -/
theorem witness_ImmediatesSurviveTheWord :
    (0x400 ∈ someConsumer.signedImmediates ∧ -2 ^ 33 ≤ (-8589934592 : Int) ∧ (-8589934592 : Int) < 2 ^ 33
        ∧ (8589934591 : Int) < 2 ^ 33)
      ∧ (0x5A5 ∉ someConsumer.signedImmediates ∧ (0 : Int) < 2 ^ 34 ∧ (17179869183 : Int) < 2 ^ 34) := by decide
/-- A known opcode, found, and an unknown one. -/
theorem witness_LookupFindsTheOnlyOperation :
    otherParams.wf = true ∧ lookupOperation otherParams 0x400 = some ⟨"OPI", 0x400⟩
      ∧ lookupOperation otherParams 0x401 = none := by decide
theorem witness_RegisterZeroIsHardwired : (1 : RegNum) ≠ 0 ∧ (31 : RegNum) ≠ 0 ∧ (0 : RegNum) ≠ 31 := by decide
/-- Two words that differ in ignored bits only, for each mask the premise can name, and a permitted read. -/
theorem witness_PermittedReadsIgnoreStrayBits :
    (shiftFieldsMeaningful someConsumer 0x2000886230000000 = true
        ∧ (0x2000886230000000#64 ^^^ 0x2000887E33FFFFFF#64) &&& meaningfulMaskShifted = 0#64
        ∧ mayRead someConsumer 0x2000886230000000 .shiftType = true)
      ∧ (shiftFieldsMeaningful someConsumer 0x400003FC00000005 = false
        ∧ (0x400003FC00000005#64 ^^^ 0x4000000000000005#64) &&& meaningfulMask (formatOfWord 0x400003FC00000005) = 0#64
        ∧ mayRead someConsumer 0x400003FC00000005 .immediate = true
        ∧ mayRead someConsumer 0x400003FC00000005 .rm = false) := by decide
theorem witness_ShiftFieldsOredInDecodeAsSet : formatTagOf 0x000 = .R ∧ formatTagOf 0x3FF = .R := by decide
/-- The longest list that is too short, and the empty one. -/
theorem witness_LoaderBytesGiveTheWord :
    ([1, 2, 3, 4, 5, 6, 7] : List Byte).length < 8 ∧ ([] : List Byte).length < 8 := by decide
/-- Both readings, each with both ends of its range, and a negative offset for the last clause. -/
theorem witness_MemoryOffsetsSurviveTheWord :
    (someConsumer.memoryOffsetSigned = true ∧ -2 ^ 31 ≤ (-2147483648 : Int) ∧ (-2147483648 : Int) < 2 ^ 31
        ∧ (2147483647 : Int) < 2 ^ 31)
      ∧ ({ someConsumer with memoryOffsetSigned := false }.memoryOffsetSigned = false ∧ (0 : Int) < 2 ^ 32
        ∧ (4294967295 : Int) < 2 ^ 32)
      ∧ -2 ^ 31 ≤ (-1 : Int) ∧ (-1 : Int) < 0 := by decide
/-- A parameter that assigns nothing, a B-type word, two words that agree on opcode and mode, and three opcodes. -/
theorem witness_ModeMeansOnlyWhatTheParameterSays :
    { someConsumer with modeSemantics := [] }.modeSemantics = [] ∧ formatOfWord 0x8005000000000007 = .B
      ∧ (0xD004FC0000001000 : Word).extractLsb' 52 12 = (0xD000000000000000 : Word).extractLsb' 52 12
      ∧ (0xD004FC0000001000 : Word).extractLsb' 34 3 = (0xD000000000000000 : Word).extractLsb' 34 3
      ∧ formatTagOf 0x3FF = .R ∧ formatTagOf 0x400 = .I ∧ formatTagOf 0xC00 = .M := by decide

end Sys2Proof.Tests
end

section
/-! Decoding and encoding are inverse (R57, R90, R125 to R131).  The decoder is described once: by the format of the
word, then by what each format's decoder answers on its own pattern.  From that follow both round trips, and from
those the words of the three named rows. -/

namespace Sys2Proof

open Sys2Proof.Machine

/-! ### The decoder, by the format of the word -/

theorem tag_slice_eq_formatNumber (w : Word) : w.extractLsb' 62 2 = formatNumber (formatOfWord w) := by
  rw [formatOfWord_eq_formatOfTag, formatNumber_formatOfTag]

section
variable {w : Word} (p : Params)

theorem decodeWord_of_format_R (h : formatOfWord w = .R) : decodeWord p w = decodeR p w := by
  simp only [decodeWord, ← formatOfWord_eq_formatOfTag, h]

theorem decodeWord_of_format_I (h : formatOfWord w = .I) : decodeWord p w = decodeI w := by
  simp only [decodeWord, ← formatOfWord_eq_formatOfTag, h]

theorem decodeWord_of_format_B (h : formatOfWord w = .B) : decodeWord p w = decodeB p w := by
  simp only [decodeWord, ← formatOfWord_eq_formatOfTag, h]

theorem decodeWord_of_format_M (h : formatOfWord w = .M) : decodeWord p w = decodeM p w := by
  simp only [decodeWord, ← formatOfWord_eq_formatOfTag, h]

end

/-- The tag of the format over the operation number is the opcode field. -/
theorem append_number_slice (w : Word) :
    (formatNumber (formatOfWord w) ++ w.extractLsb' 52 10 : Opcode) = w.extractLsb' 52 12 := by
  rw [← tag_slice_eq_formatNumber, tag_slice_of_word, number_slice_of_word, append_slices]

/-! ### Each format's decoder on its own pattern -/

theorem decodeR_rWord (p : Params) (op : Opcode) (rd rn rm : RegNum) (mode : BitVec 3) (st : BitVec 2)
    (sa : BitVec 6) (rest : BitVec 26) :
    decodeR p (rWord op rd rn rm mode st sa rest)
      = if op = p.opcAddReg then .addReg rd rn rm mode st sa rest
        else .rFormat (op.extractLsb' 0 10) rd rn rm mode st sa rest := by
  simp only [decodeR, number_slice_of_word, rWord_slice_op, rWord_slice_rd, rWord_slice_rn, rWord_slice_rm,
    rWord_slice_mode, rWord_slice_st, rWord_slice_sa, rWord_slice_rest]

theorem decodeI_iWord (op : Opcode) (rd rn : RegNum) (ignored : BitVec 8) (imm : BitVec 34) :
    decodeI (iWord op rd rn ignored imm) = .iFormat (op.extractLsb' 0 10) rd rn ignored imm := by
  simp only [decodeI, number_slice_of_word, iWord_slice_op, iWord_slice_rd, iWord_slice_rn, iWord_slice_ignored,
    iWord_slice_imm]

theorem decodeB_bWord (p : Params) (op : Opcode) (ignored : BitVec 4) (off : BitVec 48) :
    decodeB p (bWord op ignored off)
      = if op = p.opcB then .b ignored off else .bFormat (op.extractLsb' 0 10) ignored off := by
  simp only [decodeB, number_slice_of_word, bWord_slice_op, bWord_slice_ignored, bWord_slice_off]

theorem decodeM_mWord (p : Params) (op : Opcode) (rd rn : RegNum) (ignored : BitVec 10) (off : BitVec 32) :
    decodeM p (mWord op rd rn ignored off)
      = if op = p.opcLdr then .ldr rd rn ignored off else .mFormat (op.extractLsb' 0 10) rd rn ignored off := by
  simp only [decodeM, number_slice_of_word, mWord_slice_op, mWord_slice_rd, mWord_slice_rn, mWord_slice_ignored,
    mWord_slice_off]

/-! ### Decode of encode -/

theorem Params.tagsAgree_of_wf {p : Params} (h : p.wf = true) : p.tagsAgree = true := by
  obtain ⟨tags, _⟩ := Bool.and_eq_true_iff.mp h
  exact tags

/-- The lemma family of Laws/PerInstr.lean, for any instruction. -/
theorem formatOfWord_encode {p : Params} (h : p.tagsAgree = true) (i : Instr) :
    formatOfWord (encode p i) = i.format := by
  cases i with
  | rFormat => exact Laws.EncodeFormat.rFormat _ _ _ _ _ _ _ _ p h
  | iFormat => exact Laws.EncodeFormat.iFormat _ _ _ _ _ p h
  | bFormat => exact Laws.EncodeFormat.bFormat _ _ _ p h
  | mFormat => exact Laws.EncodeFormat.mFormat _ _ _ _ _ p h
  | addReg => exact Laws.EncodeFormat.addReg _ _ _ _ _ _ _ p h
  | b => exact Laws.EncodeFormat.b _ _ p h
  | ldr => exact Laws.EncodeFormat.ldr _ _ _ _ p h

/-- The word has the instruction's format (this needs R6's tags), so it meets the decoder of its own pattern; there a
generic row is well-formed exactly when it does not lose to the named one. -/
theorem decodeWord_encode {p : Params} {i : Instr} (tags : p.tagsAgree = true) (hi : i.wf p = true) :
    decodeWord p (encode p i) = i := by
  have format := formatOfWord_encode tags i
  cases i with
  | rFormat =>
    have generic := of_decide_eq_true hi
    rw [decodeWord_of_format_R p format, encode, decodeR_rWord, if_neg generic, slice_number_append]
  | iFormat => rw [decodeWord_of_format_I p format, encode, decodeI_iWord, slice_number_append]
  | bFormat =>
    have generic := of_decide_eq_true hi
    rw [decodeWord_of_format_B p format, encode, decodeB_bWord, if_neg generic, slice_number_append]
  | mFormat =>
    have generic := of_decide_eq_true hi
    rw [decodeWord_of_format_M p format, encode, decodeM_mWord, if_neg generic, slice_number_append]
  | addReg => rw [decodeWord_of_format_R p format, encode, decodeR_rWord, if_pos rfl]
  | b => rw [decodeWord_of_format_B p format, encode, decodeB_bWord, if_pos rfl]
  | ldr => rw [decodeWord_of_format_M p format, encode, decodeM_mWord, if_pos rfl]

/-- Settles O1, row by row: the word meets the decoder of its own pattern, and R164 is not needed beyond R6's tags. -/
theorem decodeOfEncodeIsTheInstruction : Obligations.DecodeOfEncodeIsTheInstruction := by
  intro p i hp hi
  exact decodeWord_encode (Params.tagsAgree_of_wf hp) hi

/-! ### Encode of decode -/

/-- Whatever the parameters, no bit of a word is lost: the named row carries the opcode field as its parameter, the
generic row as the format's tag over the operation number. -/
theorem encode_decodeWord (p : Params) (w : Word) : encode p (decodeWord p w) = w := by
  have opcode := append_number_slice w
  cases format : formatOfWord w with
  | R =>
    rw [format, formatNumber] at opcode
    rw [decodeWord_of_format_R p format, decodeR]
    split
    next named => rw [encode, ← named, ← word_eq_rWord]
    next => rw [encode, opcode, ← word_eq_rWord]
  | I =>
    rw [format, formatNumber] at opcode
    rw [decodeWord_of_format_I p format, decodeI, encode, opcode, ← word_eq_iWord]
  | B =>
    rw [format, formatNumber] at opcode
    rw [decodeWord_of_format_B p format, decodeB]
    split
    next named => rw [encode, ← named, ← word_eq_bWord]
    next => rw [encode, opcode, ← word_eq_bWord]
  | M =>
    rw [format, formatNumber] at opcode
    rw [decodeWord_of_format_M p format, decodeM]
    split
    next named => rw [encode, ← named, ← word_eq_mWord]
    next => rw [encode, opcode, ← word_eq_mWord]

/-! ### The opcode field of a decoded word -/

/-- The opcode field of an instruction's word: see `opcodeOf_encode`. -/
def Instr.opcodeField (p : Params) : Instr → Opcode
  | .rFormat n _ _ _ _ _ _ _ => 0b00#2 ++ n
  | .iFormat n _ _ _ _ => 0b01#2 ++ n
  | .bFormat n _ _ => 0b10#2 ++ n
  | .mFormat n _ _ _ _ => 0b11#2 ++ n
  | .addReg _ _ _ _ _ _ _ => p.opcAddReg
  | .b _ _ => p.opcB
  | .ldr _ _ _ _ => p.opcLdr

theorem opcodeOf_encode (p : Params) (i : Instr) : opcodeOf (encode p i) = i.opcodeField p := by
  rw [opcodeOf_eq_slice]
  cases i with
  | rFormat => exact rWord_slice_op _ _ _ _ _ _ _ _
  | iFormat => exact iWord_slice_op _ _ _ _ _
  | bFormat => exact bWord_slice_op _ _ _
  | mFormat => exact mWord_slice_op _ _ _ _ _
  | addReg => exact rWord_slice_op _ _ _ _ _ _ _ _
  | b => exact bWord_slice_op _ _ _
  | ldr => exact mWord_slice_op _ _ _ _ _

theorem opcodeField_decodeWord (p : Params) (w : Word) : (decodeWord p w).opcodeField p = opcodeOf w := by
  rw [← opcodeOf_encode, encode_decodeWord]

/-! ### The three named rows: a decoded row tells its opcode field; a word with a named opcode is, by its own
pattern, the word of a named instruction, which decodes to itself -/

section
variable {p : Params} (tags : p.tagsAgree = true) (w : Word)
include tags

theorem decodeWord_eq_addReg_iff :
    (∃ rd rn rm mode st sa rest, decodeWord p w = .addReg rd rn rm mode st sa rest) ↔ opcodeOf w = p.opcAddReg := by
  constructor
  · rintro ⟨rd, rn, rm, mode, st, sa, rest, row⟩
    rw [← opcodeField_decodeWord p w, row, Instr.opcodeField]
  · intro named
    rw [opcodeOf_eq_slice] at named
    rw [word_eq_rWord w, named]
    exact ⟨_, _, _, _, _, _, _, decodeWord_encode (i := .addReg _ _ _ _ _ _ _) tags rfl⟩

theorem decodeWord_eq_b_iff : (∃ ignored off, decodeWord p w = .b ignored off) ↔ opcodeOf w = p.opcB := by
  constructor
  · rintro ⟨ignored, off, row⟩
    rw [← opcodeField_decodeWord p w, row, Instr.opcodeField]
  · intro named
    rw [opcodeOf_eq_slice] at named
    rw [word_eq_bWord w, named]
    exact ⟨_, _, decodeWord_encode (i := .b _ _) tags rfl⟩

theorem decodeWord_eq_ldr_iff :
    (∃ rd rn ignored off, decodeWord p w = .ldr rd rn ignored off) ↔ opcodeOf w = p.opcLdr := by
  constructor
  · rintro ⟨rd, rn, ignored, off, row⟩
    rw [← opcodeField_decodeWord p w, row, Instr.opcodeField]
  · intro named
    rw [opcodeOf_eq_slice] at named
    rw [word_eq_mWord w, named]
    exact ⟨_, _, _, _, decodeWord_encode (i := .ldr _ _ _ _) tags rfl⟩

end

/-- Settles O3, from the two round trips. -/
theorem namedRowsAreTheirOpcodes : Obligations.NamedRowsAreTheirOpcodes := by
  intro p w hp
  have tags := Params.tagsAgree_of_wf hp
  exact ⟨decodeWord_eq_addReg_iff tags w, decodeWord_eq_b_iff tags w, decodeWord_eq_ldr_iff tags w⟩

end Sys2Proof
end

section
/-! One step and one run, said once: a step serves the oldest pending invocation (R34), for a word goes through the
decoder and `exec` unchanged.  So an invocation's result is its own (R36), and a predicate that serving keeps is kept
by every step. -/

namespace Sys2Proof.Machine

theorem step_serves {s : State} {inv : Invocation} {rest : List Invocation} (h : s.pending = inv :: rest) :
    step s = .next (({ s with pending := rest } : State).serve inv) := by
  rw [step_cons s inv rest h]
  cases inv with
  | decode w => simp only [encode_decodeWord, State.serve]
  | classify | compose | build | route => rfl

/-- What holds of the state before a step holds after it, if serving any invocation keeps it. -/
theorem step_keeps {P : State → Prop}
    (serves : ∀ (s : State) (inv : Invocation) (rest : List Invocation),
      P s → P (({ s with pending := rest } : State).serve inv))
    {s t : State} (hs : P s) (h : step s = .next t) : P t := by
  cases pending : s.pending with
  | nil =>
    rw [step_idle s pending] at h
    cases h
    exact hs
  | cons inv rest =>
    rw [step_serves pending] at h
    cases h
    exact serves s inv rest hs

theorem run_succ_of_step {s t : State} (k : Nat) (h : step s = .next t) :
    Host.Core.run core (k + 1) s = Host.Core.run core k t := by
  have coreStep : core.step s = .next t := h
  simp only [Host.Core.run, coreStep]

/-- The run up to and with an invocation ends by serving it, in a state that the invocations before it left. -/
theorem run_through {before after : List Invocation} {inv : Invocation} {s : State}
    (h : s.pending = before ++ inv :: after) :
    ∃ t : State, t.pending = after ∧ Host.Core.run core (before.length + 1) s = .next (t.serve inv) := by
  induction before generalizing s with
  | nil => exact ⟨{ s with pending := after }, rfl, run_succ_of_step 0 (step_serves h)⟩
  | cons first before ih =>
    rw [List.length_cons, run_succ_of_step _ (step_serves h)]
    exact ih (serve_pending _ first)

/-- Settles O17: the last step serves `inv`, and serving leaves `resultOf inv` on its ports from any state. -/
theorem everyInvocationReturnsItsOwnResult : Obligations.EveryInvocationReturnsItsOwnResult := by
  intro s before after inv h
  obtain ⟨t, pending, run⟩ := run_through h
  exact ⟨t.serve inv, run, (serve_pending t inv).trans pending, observe_serve t inv⟩

end Sys2Proof.Machine
end

section
/-! Every output port is the function of the current inputs, at reset and along steps (R10, R25). -/

namespace Sys2Proof.Machine

/-- An invocation drives its own inputs and outputs together and leaves the other sub-blocks alone. -/
theorem coherent_serve (s : State) (inv : Invocation) (rest : List Invocation) (h : s.Coherent) :
    (({ s with pending := rest } : State).serve inv).Coherent := by
  obtain ⟨accessors, routed, classifier, composed, encoder⟩ := h
  cases inv with
  | decode w => exact ⟨rfl, rfl, rfl, composed, encoder⟩
  | classify op => exact ⟨accessors, routed, rfl, composed, encoder⟩
  | compose tag n => exact ⟨accessors, routed, classifier, rfl, encoder⟩
  | build | route => exact ⟨accessors, routed, classifier, composed, rfl⟩

/-- Settles O19. -/
theorem stepKeepsOutputsCoherent : Obligations.StepKeepsOutputsCoherent := by
  intro s t hs h
  exact step_keeps coherent_serve hs h

theorem coherent_reset : State.reset.Coherent := ⟨rfl, rfl, rfl, rfl, rfl⟩

/-- Settles O20. -/
theorem resetIsCoherent : Obligations.ResetIsCoherent := coherent_reset

end Sys2Proof.Machine
end

section
/-! The classifier's outputs by the two tag bits and by the ranges of R44, and from them what a step does with each
kind of invocation. -/

namespace Sys2Proof.Machine

theorem and_formatMask_eq_iff (op : Opcode) (t : Tag) :
    op &&& formatMask = t ++ 0#10 ↔ op.extractLsb' 10 2 = t := by
  rw [and_formatMask, tag_append_injective]

theorem isRType_eq_decide (op : Opcode) : isRType op = decide (op.extractLsb' 10 2 = 0b00#2) :=
  decide_eq_decide.mpr (and_formatMask_eq_iff op 0b00#2)

theorem isIType_eq_decide (op : Opcode) : isIType op = decide (op.extractLsb' 10 2 = 0b01#2) :=
  decide_eq_decide.mpr (and_formatMask_eq_iff op 0b01#2)

theorem isBType_eq_decide (op : Opcode) : isBType op = decide (op.extractLsb' 10 2 = 0b10#2) :=
  decide_eq_decide.mpr (and_formatMask_eq_iff op 0b10#2)

theorem isMType_eq_decide (op : Opcode) : isMType op = decide (op.extractLsb' 10 2 = 0b11#2) :=
  decide_eq_decide.mpr (and_formatMask_eq_iff op 0b11#2)

theorem formatNumber_formatTagOf (op : Opcode) : formatNumber (formatTagOf op) = op.extractLsb' 10 2 := by
  rw [formatTagOf_eq_formatOfTag, formatNumber_formatOfTag]

/-- The specification of the classifier: both parts of the opcode, and the predicates as tests of the tag. -/
theorem classify_eq_slices (op : Opcode) :
    classify op =
      { formatTag := op.extractLsb' 10 2
        isRType := decide (op.extractLsb' 10 2 = 0b00#2)
        isIType := decide (op.extractLsb' 10 2 = 0b01#2)
        isBType := decide (op.extractLsb' 10 2 = 0b10#2)
        isMType := decide (op.extractLsb' 10 2 = 0b11#2)
        operationNumber := op.extractLsb' 0 10 } := by
  simp only [classify, formatNumber_formatTagOf, isRType_eq_decide, isIType_eq_decide, isBType_eq_decide,
    isMType_eq_decide, operationNumberOf_eq_slice]

/-- A tag selects a range of 1024 opcodes (R44). -/
theorem tag_slice_eq_iff_range (op : Opcode) (t : Tag) :
    op.extractLsb' 10 2 = t ↔ t.toNat * 1024 ≤ op.toNat ∧ op.toNat < t.toNat * 1024 + 1024 := by
  have := op.isLt
  rw [← BitVec.toNat_inj, extractLsb'_toNat_div]
  omega

theorem classify_eq_ranges (op : Opcode) :
    classify op =
      { formatTag := op.extractLsb' 10 2
        isRType := decide (op.toNat ≤ 0x3FF)
        isIType := decide (0x400 ≤ op.toNat ∧ op.toNat ≤ 0x7FF)
        isBType := decide (0x800 ≤ op.toNat ∧ op.toNat ≤ 0xBFF)
        isMType := decide (0xC00 ≤ op.toNat)
        operationNumber := op.extractLsb' 0 10 } := by
  have := op.isLt
  rw [classify_eq_slices]
  congr 1 <;> rw [decide_eq_decide, tag_slice_eq_iff_range, BitVec.toNat_ofNat] <;> omega

/-! ### One step of each kind of invocation -/

theorem routedInputs_eq (op : Opcode) (rd rn rm : RegIn) (imm boffset moffset : ValIn) :
    routedInputs op rd rn rm imm boffset moffset
      = ⟨op.extractLsb' 10 2, op, rd, rn, rm, imm, boffset, moffset⟩ := by
  rw [routedInputs, formatNumber_formatTagOf]

/-- Settles O6: each invocation by `step_serves` and the specification of the sub-block it drives. -/
theorem stepDrivesThePortsOfTheInvocation : Obligations.StepDrivesThePortsOfTheInvocation := by
  intro s rest
  refine ⟨step_idle s, ?classify, ?compose, ?build, ?route⟩
  case classify =>
    intro op h
    rw [step_serves h, State.serve, State.presentOpcode, classify_eq_ranges]
  case compose =>
    intro tag n h
    rw [step_serves h, State.serve, State.presentParts, makeOpcode_eq_append]
  case build =>
    intro x h
    rw [step_serves h, State.serve, State.presentOperands]
  case route =>
    intro op rd rn rm imm boffset moffset h
    rw [step_serves h, State.serve, State.presentOperands, routedInputs_eq]

end Sys2Proof.Machine
end

section
/-! The decode side: the accessors lose no bit of a word (R104), and re-encoding the routed payload keeps the
meaningful ones (R113, R116).  A format's mask is its own row pattern with all ones or all zeros in each field, so
that masking a word works field by field. -/

namespace Sys2Proof.Machine

/-- The six physical fields, concatenated, are the word (R41). -/
theorem reassemble_decodeAll (w : Word) : reassemble (decodeAll w) = w := by
  have := w.isLt
  apply BitVec.eq_of_toNat_eq
  simp only [reassemble, decodeAll, append_toNat, opcodeOf_eq_slice, rdOf_eq_slice, rnOf_eq_slice, rmOf_eq_slice,
    modeOf_eq_slice, extendedOf_eq_slice, extractLsb'_toNat_div]
  omega

/-- Settles O32; the two records are the spec's examples, compared field by field. -/
theorem accessorRecordLosesNothing : Obligations.AccessorRecordLosesNothing :=
  ⟨fun w => ⟨reassemble_decodeAll w, rfl⟩, by decide, by decide⟩

/-! ### Masking on the row patterns -/

theorem rWord_and_rWord (op op' : Opcode) (rd rd' rn rn' rm rm' : RegNum) (mode mode' : BitVec 3)
    (st st' : BitVec 2) (sa sa' : BitVec 6) (rest rest' : BitVec 26) :
    rWord op rd rn rm mode st sa rest &&& rWord op' rd' rn' rm' mode' st' sa' rest'
      = rWord (op &&& op') (rd &&& rd') (rn &&& rn') (rm &&& rm') (mode &&& mode') (st &&& st') (sa &&& sa')
          (rest &&& rest') :=
  BitVec.and_append.trans (by simp only [BitVec.and_append, rWord])

theorem iWord_and_iWord (op op' : Opcode) (rd rd' rn rn' : RegNum) (ignored ignored' : BitVec 8)
    (imm imm' : BitVec 34) :
    iWord op rd rn ignored imm &&& iWord op' rd' rn' ignored' imm'
      = iWord (op &&& op') (rd &&& rd') (rn &&& rn') (ignored &&& ignored') (imm &&& imm') :=
  BitVec.and_append.trans (by simp only [BitVec.and_append, iWord])

theorem bWord_and_bWord (op op' : Opcode) (ignored ignored' : BitVec 4) (off off' : BitVec 48) :
    bWord op ignored off &&& bWord op' ignored' off'
      = bWord (op &&& op') (ignored &&& ignored') (off &&& off') :=
  BitVec.and_append.trans (by simp only [BitVec.and_append, bWord])

theorem mWord_and_mWord (op op' : Opcode) (rd rd' rn rn' : RegNum) (ignored ignored' : BitVec 10)
    (off off' : BitVec 32) :
    mWord op rd rn ignored off &&& mWord op' rd' rn' ignored' off'
      = mWord (op &&& op') (rd &&& rd') (rn &&& rn') (ignored &&& ignored') (off &&& off') :=
  BitVec.and_append.trans (by simp only [BitVec.and_append, mWord])

theorem rWord_and_meaningfulMask (op : Opcode) (rd rn rm : RegNum) (mode : BitVec 3) (st : BitVec 2)
    (sa : BitVec 6) (rest : BitVec 26) :
    rWord op rd rn rm mode st sa rest &&& meaningfulMask .R = rWord op rd rn rm 0#3 0#2 0#6 0#26 := by
  have mask : meaningfulMask .R = rWord (.allOnes 12) (.allOnes 5) (.allOnes 5) (.allOnes 5) 0#3 0#2 0#6 0#26 := by
    decide
  simp only [mask, rWord_and_rWord, BitVec.and_allOnes, BitVec.and_zero]

theorem iWord_and_meaningfulMask (op : Opcode) (rd rn : RegNum) (ignored : BitVec 8) (imm : BitVec 34) :
    iWord op rd rn ignored imm &&& meaningfulMask .I = iWord op rd rn 0#8 imm := by
  have mask : meaningfulMask .I = iWord (.allOnes 12) (.allOnes 5) (.allOnes 5) 0#8 (.allOnes 34) := by decide
  simp only [mask, iWord_and_iWord, BitVec.and_allOnes, BitVec.and_zero]

theorem bWord_and_meaningfulMask (op : Opcode) (ignored : BitVec 4) (off : BitVec 48) :
    bWord op ignored off &&& meaningfulMask .B = bWord op 0#4 off := by
  have mask : meaningfulMask .B = bWord (.allOnes 12) 0#4 (.allOnes 48) := by decide
  simp only [mask, bWord_and_bWord, BitVec.and_allOnes, BitVec.and_zero]

theorem mWord_and_meaningfulMask (op : Opcode) (rd rn : RegNum) (ignored : BitVec 10) (off : BitVec 32) :
    mWord op rd rn ignored off &&& meaningfulMask .M = mWord op rd rn 0#10 off := by
  have mask : meaningfulMask .M = mWord (.allOnes 12) (.allOnes 5) (.allOnes 5) 0#10 (.allOnes 32) := by decide
  simp only [mask, mWord_and_mWord, BitVec.and_allOnes, BitVec.and_zero]

/-! ### The routed decode -/

theorem formatOfTag_tagOf (w : Word) : formatOfTag (tagOf w) = formatOfWord w := by
  rw [tagOf_eq_slice, formatOfWord_eq_formatOfTag]

theorem formatOfWord_eq_formatTagOf_opcodeOf (w : Word) : formatOfWord w = formatTagOf (opcodeOf w) := rfl

@[simp] theorem decodeRouted_format (w : Word) : (decodeRouted w).format = formatOfWord w := by
  rw [decodeRouted, formatOfTag_tagOf]
  cases formatOfWord w <;> rfl

@[simp] theorem decodeRouted_opcode (w : Word) : (decodeRouted w).opcode = opcodeOf w := by
  rw [decodeRouted]
  cases formatOfTag (tagOf w) <;> rfl

/-- The builder of the payload's format fills the pattern of the word with its own fields and 0 in the ignored bits
(R116). -/
theorem reencode_decodeRouted (w : Word) :
    reencode (decodeRouted w) = w &&& meaningfulMask (formatOfWord w) := by
  rw [decodeRouted, formatOfTag_tagOf]
  cases formatOfWord w with
  | R =>
    conv_rhs => rw [word_eq_rWord w, rWord_and_meaningfulMask]
    simp [reencode, buildR_eq_pattern, opcodeOf_eq_slice, rdOf_eq_slice, rnOf_eq_slice, rmOf_eq_slice]
  | I =>
    conv_rhs => rw [word_eq_iWord w, iWord_and_meaningfulMask]
    simp [reencode, buildI_eq_pattern, opcodeOf_eq_slice, rdOf_eq_slice, rnOf_eq_slice, immediateOf_eq_slice]
  | B =>
    conv_rhs => rw [word_eq_bWord w, bWord_and_meaningfulMask]
    simp [reencode, buildB_eq_pattern, opcodeOf_eq_slice, branchOffsetOf_eq_slice]
  | M =>
    conv_rhs => rw [word_eq_mWord w, mWord_and_meaningfulMask]
    simp [reencode, buildM_eq_pattern, opcodeOf_eq_slice, rdOf_eq_slice, rnOf_eq_slice, memoryOffsetOf_eq_slice]

end Sys2Proof.Machine
end

section
/-! The encode side: every built word carries the presented opcode (R85); the routed word is canonical (R86, R111);
and without a mismatch the built word is the routed one (R117). -/

namespace Sys2Proof.Machine

@[simp] theorem opcodeOf_buildR (op : Opcode) (rd rn rm : RegIn) : opcodeOf (buildR op rd rn rm) = op := by
  rw [opcodeOf_eq_slice, buildR_eq_pattern, rWord_slice_op]

@[simp] theorem opcodeOf_buildI (op : Opcode) (rd rn : RegIn) (imm : ValIn) : opcodeOf (buildI op rd rn imm) = op := by
  rw [opcodeOf_eq_slice, buildI_eq_pattern, iWord_slice_op]

@[simp] theorem opcodeOf_buildB (op : Opcode) (offset : ValIn) : opcodeOf (buildB op offset) = op := by
  rw [opcodeOf_eq_slice, buildB_eq_pattern, bWord_slice_op]

@[simp] theorem opcodeOf_buildM (op : Opcode) (rd rn : RegIn) (offset : ValIn) :
    opcodeOf (buildM op rd rn offset) = op := by
  rw [opcodeOf_eq_slice, buildM_eq_pattern, mWord_slice_op]

@[simp] theorem opcodeOf_buildSelected (x : EncoderIn) : opcodeOf (buildSelected x) = x.op := by
  rw [buildSelected]
  cases formatOfTag x.builderSel with
  | R => exact opcodeOf_buildR _ _ _ _
  | I => exact opcodeOf_buildI _ _ _ _
  | B => exact opcodeOf_buildB _ _
  | M => exact opcodeOf_buildM _ _ _ _

theorem meaningfulMask_and_ignoredMask (f : Format) : meaningfulMask f &&& ignoredMask f = 0#64 := by
  cases f <;> decide

/-- A word that the meaningful mask of its own format leaves as it is has no ignored bit set. -/
theorem canonical_of_and_meaningfulMask {w : Word} (h : w &&& meaningfulMask (formatOfWord w) = w) :
    canonical w = true := by
  have noIgnoredBit : w &&& ignoredMask (formatOfWord w) = 0#64 := calc
    w &&& ignoredMask (formatOfWord w)
      = w &&& meaningfulMask (formatOfWord w) &&& ignoredMask (formatOfWord w) := by rw [h]
    _ = 0#64 := by rw [BitVec.and_assoc, meaningfulMask_and_ignoredMask, BitVec.and_zero]
  exact beq_iff_eq.mpr noIgnoredBit

section
variable (op : Opcode) (rd rn rm : RegIn) (imm boffset moffset : ValIn)

@[simp] theorem opcodeOf_encodeRouted : opcodeOf (encodeRouted op rd rn rm imm boffset moffset) = op := by
  rw [encodeRouted]
  cases formatTagOf op with
  | R => exact opcodeOf_buildR _ _ _ _
  | I => exact opcodeOf_buildI _ _ _ _
  | B => exact opcodeOf_buildB _ _
  | M => exact opcodeOf_buildM _ _ _ _

@[simp] theorem formatOfWord_encodeRouted :
    formatOfWord (encodeRouted op rd rn rm imm boffset moffset) = formatTagOf op := by
  rw [formatOfWord_eq_formatTagOf_opcodeOf, opcodeOf_encodeRouted]

/-- The builder that the opcode's tag calls for packs nothing into the bits that the word's format ignores. -/
theorem canonical_encodeRouted : canonical (encodeRouted op rd rn rm imm boffset moffset) = true := by
  apply canonical_of_and_meaningfulMask
  rw [formatOfWord_encodeRouted, encodeRouted]
  cases formatTagOf op with
  | R => simp only [buildR_eq_pattern, rWord_and_meaningfulMask]
  | I => simp only [buildI_eq_pattern, iWord_and_meaningfulMask]
  | B => simp only [buildB_eq_pattern, bWord_and_meaningfulMask]
  | M => simp only [buildM_eq_pattern, mWord_and_meaningfulMask]

end

theorem builderMismatch_eq_false_iff (sel : Tag) (op : Opcode) :
    builderMismatch sel op = false ↔ sel = op.extractLsb' 10 2 :=
  bne_eq_false_iff_eq

theorem buildSelected_of_match {x : EncoderIn} (h : builderMismatch x.builderSel x.op = false) :
    buildSelected x = encodeRouted x.op x.rd x.rn x.rm x.imm x.boffset x.moffset := by
  have sameFormat : formatOfTag x.builderSel = formatTagOf x.op := by
    rw [(builderMismatch_eq_false_iff _ _).mp h, formatTagOf_eq_formatOfTag]
  cases format : formatTagOf x.op <;> rw [buildSelected, encodeRouted, sameFormat, format]

end Sys2Proof.Machine
end

section
/-! The port laws are four laws, each about one sub-block's inputs and outputs.  A sub-block's outputs meet its law
whenever they are the functions of its inputs, so an invocation re-establishes the laws of the ports it drives and
leaves the others alone. -/

namespace Sys2Proof.Machine

/-- Exactly one predicate holds, it names the tag, and tag and number are the opcode (R76, R77). -/
def ClassifierLaw (op : Opcode) (c : ClassifierOut) : Prop :=
  [c.isRType, c.isIType, c.isBType, c.isMType].count true = 1
  ∧ c.isRType = decide (c.formatTag = 0b00#2)
  ∧ c.isIType = decide (c.formatTag = 0b01#2)
  ∧ c.isBType = decide (c.formatTag = 0b10#2)
  ∧ c.isMType = decide (c.formatTag = 0b11#2)
  ∧ makeOpcode c.formatTag c.operationNumber = op

/-- The accessors are the word, and the payload is the word's format, opcode and meaningful bits (R104, R113). -/
def DecodeLaw (w : Word) (a : AccessorRecord) (r : RoutedOut) : Prop :=
  reassemble a = w
  ∧ r.payload.format = r.format ∧ r.payload.opcode = r.opcode
  ∧ r.opcode = a.opcode ∧ r.format = formatOfWord w
  ∧ reencode r.payload = w &&& r.meaningfulMask

/-- The tag is read back from the composed opcode (R70). -/
def ComposeLaw (tag : Tag) (op : Opcode) : Prop := op.extractLsb' 10 2 = tag

/-- Both words carry the opcode, the routed one is canonical, and so is the built one when the mismatch bit is 0, for
then it is the routed one (R111, R117). -/
def EncoderLaw (x : EncoderIn) (o : EncoderOut) : Prop :=
  (o.builderMismatch = false → o.word = o.routedWord ∧ canonical o.word = true)
  ∧ opcodeOf o.word = x.op
  ∧ opcodeOf o.routedWord = x.op ∧ canonical o.routedWord = true

theorem portLaws_iff (s : State) :
    s.PortLaws ↔ ClassifierLaw s.classifierIn s.classifierOut ∧ DecodeLaw s.word s.accessors s.routed
      ∧ ComposeLaw s.composeTag s.composed ∧ EncoderLaw s.encoderIn s.encoderOut :=
  and_congr_right' and_assoc.symm

/-! ### Each sub-block meets its law -/

theorem classify_meets_law (op : Opcode) : ClassifierLaw op (classify op) := by
  rw [classify_eq_slices]
  refine ⟨?one, rfl, rfl, rfl, rfl, ?recompose⟩
  case one =>
    dsimp only
    rcases tag_cases (op.extractLsb' 10 2) with tag | tag | tag | tag <;> rw [tag] <;> decide
  case recompose => rw [makeOpcode_eq_append, append_slices]

theorem decode_meets_law (w : Word) : DecodeLaw w (decodeAll w) (routeDecode w) :=
  ⟨reassemble_decodeAll w, decodeRouted_format w, decodeRouted_opcode w, rfl, rfl, reencode_decodeRouted w⟩

theorem makeOpcode_meets_law (tag : Tag) (n : OperationNumber) : ComposeLaw tag (makeOpcode tag n) := by
  rw [ComposeLaw, makeOpcode_eq_append, slice_tag_append]

theorem driveEncoder_meets_law (x : EncoderIn) : EncoderLaw x (driveEncoder x) := by
  refine ⟨fun noMismatch => ?_, opcodeOf_buildSelected x, opcodeOf_encodeRouted .., canonical_encodeRouted ..⟩
  have same := buildSelected_of_match noMismatch
  rw [driveEncoder_word, driveEncoder_routedWord, same]
  exact ⟨rfl, canonical_encodeRouted ..⟩

/-! ### The laws at reset and along steps -/

theorem portLaws_of_coherent {s : State} (h : s.Coherent) : s.PortLaws := by
  obtain ⟨accessors, routed, classifier, composed, encoder⟩ := h
  rw [portLaws_iff, accessors, routed, classifier, composed, encoder]
  exact ⟨classify_meets_law _, decode_meets_law _, makeOpcode_meets_law _ _, driveEncoder_meets_law _⟩

theorem portLaws_serve (s : State) (inv : Invocation) (rest : List Invocation) (h : s.PortLaws) :
    (({ s with pending := rest } : State).serve inv).PortLaws := by
  obtain ⟨classifier, decode, compose, encoder⟩ := (portLaws_iff s).mp h
  rw [portLaws_iff]
  cases inv with
  | decode w => exact ⟨classify_meets_law _, decode_meets_law w, compose, encoder⟩
  | classify op => exact ⟨classify_meets_law op, decode, compose, encoder⟩
  | compose tag n => exact ⟨classifier, decode, makeOpcode_meets_law tag n, encoder⟩
  | build x => exact ⟨classifier, decode, compose, driveEncoder_meets_law x⟩
  | route => exact ⟨classifier, decode, compose, driveEncoder_meets_law _⟩

/-- Settles O21. -/
theorem stepKeepsThePortLaws : Obligations.StepKeepsThePortLaws := by
  intro s t hs h
  exact step_keeps portLaws_serve hs h

/-- Settles O22: the reset state is coherent. -/
theorem resetHasThePortLaws : Obligations.ResetHasThePortLaws := portLaws_of_coherent coherent_reset

end Sys2Proof.Machine
end

section
/-! The registers of the codec's surroundings: the names of R16 and the execution contract of register 0 (R17,
R162). -/

namespace Sys2Proof.Machine

theorem registerNumber_registerName (r : RegNum) : registerNumber (registerName r) = r := by
  have := r.isLt
  apply BitVec.eq_of_toNat_eq
  rw [registerName]
  split
  next below => simp [registerNumber]
  next above =>
    have last : r.toNat = 31 := by omega
    rw [last]
    rfl

theorem registerName_ofNat (n : Fin 31) : registerName (BitVec.ofNat 5 n.val) = .x n := by
  have number : (BitVec.ofNat 5 n.val).toNat = n.val := by
    rw [BitVec.toNat_ofNat]
    omega
  simp only [registerName, number, n.isLt, dif_pos]

theorem registerName_registerNumber (x : Register) : registerName (registerNumber x) = x := by
  cases x with
  | x n => exact registerName_ofNat n
  | sp => rfl

/-- Settles O48. -/
theorem registerNumbersNameTheRegisters : Obligations.RegisterNumbersNameTheRegisters :=
  ⟨registerNumber_registerName, registerName_registerNumber, registerName_ofNat, rfl⟩

/-! ### Reading and writing -/

section
variable {k : Nat} (file : Vector (BitVec k) 32) (v : BitVec k)

theorem readRegister_zero : readRegister file 0#5 = 0#k := if_pos rfl

theorem readRegister_of_ne_zero {r : RegNum} (h : r ≠ 0#5) : readRegister file r = file[r.toNat]'r.isLt := if_neg h

theorem writeRegister_zero : writeRegister file 0#5 v = file := if_pos rfl

theorem writeRegister_of_ne_zero {r : RegNum} (h : r ≠ 0#5) : writeRegister file r v = file.set r.toNat v r.isLt :=
  if_neg h

theorem readRegister_writeRegister_same {r : RegNum} (h : r ≠ 0#5) :
    readRegister (writeRegister file r v) r = v := by
  rw [readRegister_of_ne_zero _ h, writeRegister_of_ne_zero _ _ h, Vector.getElem_set_self]

/-- Also where one of the two is register 0: a dropped write changes no register, and register 0 reads 0 of any
file. -/
theorem readRegister_writeRegister_other {r q : RegNum} (h : q ≠ r) :
    readRegister (writeRegister file r v) q = readRegister file q := by
  by_cases dropped : r = 0#5
  · rw [dropped, writeRegister_zero]
  by_cases zero : q = 0#5
  · rw [zero, readRegister_zero, readRegister_zero]
  · have apart : r.toNat ≠ q.toNat := fun same => h (BitVec.eq_of_toNat_eq same.symm)
    rw [readRegister_of_ne_zero _ zero, readRegister_of_ne_zero _ zero, writeRegister_of_ne_zero _ _ dropped,
      Vector.getElem_set_ne _ _ apart]

end

/-- Settles O47. -/
theorem registerZeroIsHardwired : Obligations.RegisterZeroIsHardwired := by
  intro k file r q v
  exact ⟨readRegister_zero file, writeRegister_zero file v, readRegister_writeRegister_same file v,
    readRegister_writeRegister_other file v⟩

end Sys2Proof.Machine
end

section
/-! A loader's bytes and the word they hold (R32, R40).  The word is told by its slices: the byte at address `k` is the
slice at byte position `order.byteAt[k]`, and since these positions are all eight, no bit of the word is left open. -/

namespace Sys2Proof

open Sys2Proof.Machine

/-! ### Byte orders -/

theorem ByteOrder.byteAt_inj (order : ByteOrder) {k l : Fin 8} : order.byteAt[k] = order.byteAt[l] ↔ k = l := by
  have inj := order.distinct.getElem_inj_iff (i := k.val) (j := l.val) (hi := by simp) (hj := by simp)
  simpa [Fin.val_inj] using inj

/-- Eight distinct byte numbers at eight addresses leave none out. -/
theorem ByteOrder.exists_byteAt_eq (order : ByteOrder) (i : Fin 8) : ∃ k : Fin 8, order.byteAt[k] = i :=
  Finite.surjective_of_injective (f := fun k : Fin 8 => order.byteAt[k]) (fun _ _ => order.byteAt_inj.mp) i

/-! ### The slices of the word that stored bytes hold -/

/-- Bit `j` stands in byte `j / 8`, which stands at some address. -/
theorem word_eq_of_byte_slices (order : ByteOrder) {v w : Word}
    (h : ∀ k : Fin 8, v.extractLsb' (8 * order.byteAt[k].val) 8 = w.extractLsb' (8 * order.byteAt[k].val) 8) :
    v = w := by
  apply BitVec.eq_of_getLsbD_eq
  intro j hj
  obtain ⟨k, position⟩ := order.exists_byteAt_eq ⟨j / 8, by omega⟩
  have bit := congrArg (BitVec.getLsbD · (j % 8)) (h k)
  have inByte : j % 8 < 8 := Nat.mod_lt _ (by decide)
  simpa [position, inByte, Nat.div_add_mod] using bit

theorem getLsbD_foldl_or {α : Type} (f : α → Word) (xs : List α) (w : Word) (j : Nat) :
    (xs.foldl (fun w x => w ||| f x) w).getLsbD j = (w.getLsbD j || xs.any fun x => (f x).getLsbD j) := by
  induction xs generalizing w with
  | nil => simp
  | cons x xs ih => simp [ih, Bool.or_assoc]

/-- A byte packed at one byte position has its bits there and nothing at any other. -/
theorem getLsbD_packAt_byte (b : Byte) (i l : Fin 8) {t : Nat} (ht : t < 8) :
    (packAt b (8 * l.val)).getLsbD (8 * i.val + t) = (decide (l = i) && b.getLsbD t) := by
  have inWord : 8 * i.val + t < 64 := by omega
  simp only [packAt, BitVec.getLsbD_shiftLeft, BitVec.getLsbD_setWidth, inWord]
  by_cases same : l = i
  · subst same
    have : t < 64 := by omega
    simp [this]
  · have apart : l.val ≠ i.val := Fin.val_ne_of_ne same
    by_cases below : 8 * i.val + t < 8 * l.val
    · simp [same, below]
    · have past : 8 ≤ 8 * i.val + t - 8 * l.val := by omega
      simp [same, BitVec.getLsbD_of_ge b _ past]

/-- Among the eight bytes that are OR-ed, only the one at address `k` has bits at its position. -/
theorem extractLsb'_wordOfBytes (order : ByteOrder) (bytes : Vector Byte 8) (k : Fin 8) :
    (wordOfBytes order bytes).extractLsb' (8 * order.byteAt[k].val) 8 = bytes[k] := by
  apply BitVec.eq_of_getLsbD_eq
  intro t ht
  have onlyAtK : ((List.finRange 8).any fun l => decide (l = k) && bytes[l].getLsbD t) = bytes[k].getLsbD t := by
    rw [Bool.eq_iff_iff]
    simp
  simp only [wordOfBytes, BitVec.getLsbD_extractLsb', getLsbD_foldl_or, getLsbD_packAt_byte _ _ _ ht,
    order.byteAt_inj, onlyAtK]
  simp [ht]

/-- The specification of `wordOfBytes`. -/
theorem wordOfBytes_eq_iff (order : ByteOrder) (bytes : Vector Byte 8) (w : Word) :
    wordOfBytes order bytes = w ↔ ∀ k : Fin 8, w.extractLsb' (8 * order.byteAt[k].val) 8 = bytes[k] := by
  constructor
  · rintro rfl k
    exact extractLsb'_wordOfBytes order bytes k
  · intro slices
    exact word_eq_of_byte_slices order fun k => (extractLsb'_wordOfBytes order bytes k).trans (slices k).symm

/-! ### The bytes of a word -/

/-- `bytesOfWord` with its length in the type. -/
def byteVectorOfWord (order : ByteOrder) (w : Word) : Vector Byte 8 :=
  order.byteAt.map fun i => w.extractLsb' (8 * i.val) 8

theorem bytesOfWord_eq_toList (order : ByteOrder) (w : Word) :
    bytesOfWord order w = (byteVectorOfWord order w).toList :=
  Vector.toList_map.symm

theorem byteVectorOfWord_getElem (order : ByteOrder) (w : Word) (k : Fin 8) :
    (byteVectorOfWord order w)[k] = w.extractLsb' (8 * order.byteAt[k].val) 8 :=
  Vector.getElem_map (xs := order.byteAt) _ k.isLt

theorem wordOfBytes_byteVectorOfWord (order : ByteOrder) (w : Word) :
    wordOfBytes order (byteVectorOfWord order w) = w :=
  (wordOfBytes_eq_iff order _ w).mpr fun k => (byteVectorOfWord_getElem order w k).symm

/-! ### Decoding a byte string -/

theorem decodeBytes_toList_append (p : Params) (order : ByteOrder) (bytes : Vector Byte 8) (rest : List Byte) :
    decodeBytes p order (bytes.toList ++ rest) = .ok (decodeWord p (wordOfBytes order bytes), rest) := by
  obtain ⟨⟨stored⟩, eight⟩ := bytes
  match stored, eight with
  | [_, _, _, _, _, _, _, _], _ => rfl

/-- R32, R40: in any order, a word's own bytes decode as the word. -/
theorem decodeBytes_bytesOfWord (p : Params) (order : ByteOrder) (w : Word) (rest : List Byte) :
    decodeBytes p order (bytesOfWord order w ++ rest) = .ok (decodeWord p w, rest) := by
  rw [bytesOfWord_eq_toList, decodeBytes_toList_append, wordOfBytes_byteVectorOfWord]

theorem decodeBytes_of_length_lt (p : Params) (order : ByteOrder) {bytes : List Byte} (h : bytes.length < 8) :
    decodeBytes p order bytes = .error .incompleteWord := by
  rw [decodeBytes]
  rintro b0 b1 b2 b3 b4 b5 b6 b7 rest rfl
  simp only [List.length_cons] at h
  omega

/-! ### The two plain orders -/

section
variable (b0 b1 b2 b3 b4 b5 b6 b7 : Byte)

/-- Byte `i` of eight concatenated bytes, counted from the last one, which is bits [7:0]. -/
theorem extractLsb'_of_eight_bytes (i : Fin 8) :
    (b7 ++ b6 ++ b5 ++ b4 ++ b3 ++ b2 ++ b1 ++ b0 : Word).extractLsb' (8 * i.val) 8
      = #v[b0, b1, b2, b3, b4, b5, b6, b7][i] := by
  apply BitVec.eq_of_toNat_eq
  simp only [extractLsb'_toNat_div, append_toNat]
  fin_cases i <;> dsimp <;> omega

theorem wordOfBytes_leastSignificantFirst :
    wordOfBytes .leastSignificantFirst #v[b0, b1, b2, b3, b4, b5, b6, b7]
      = b7 ++ b6 ++ b5 ++ b4 ++ b3 ++ b2 ++ b1 ++ b0 := by
  have position : ∀ k : Fin 8, ByteOrder.leastSignificantFirst.byteAt[k] = k := by decide
  rw [wordOfBytes_eq_iff]
  intro k
  rw [position, extractLsb'_of_eight_bytes]

theorem wordOfBytes_mostSignificantFirst :
    wordOfBytes .mostSignificantFirst #v[b0, b1, b2, b3, b4, b5, b6, b7]
      = b0 ++ b1 ++ b2 ++ b3 ++ b4 ++ b5 ++ b6 ++ b7 := by
  have position : ∀ k : Fin 8, ByteOrder.mostSignificantFirst.byteAt[k] = k.rev := by decide
  rw [wordOfBytes_eq_iff]
  intro k
  rw [position, extractLsb'_of_eight_bytes]
  fin_cases k <;> rfl

end

/-- Settles O51: each clause is one fact about `decodeBytes` or about a plain order. -/
theorem loaderBytesGiveTheWord : Obligations.LoaderBytesGiveTheWord := by
  refine ⟨fun p order w rest => ⟨?decodes, ?rejects⟩, fun b0 b1 b2 b3 b4 b5 b6 b7 => ⟨?lsf, ?msf⟩⟩
  case decodes => exact decodeBytes_bytesOfWord p order w rest
  case rejects => exact decodeBytes_of_length_lt p order
  case lsf => exact wordOfBytes_leastSignificantFirst b0 b1 b2 b3 b4 b5 b6 b7
  case msf => exact wordOfBytes_mostSignificantFirst b0 b1 b2 b3 b4 b5 b6 b7

end Sys2Proof
end

section
/-! A step whose invocation presents a word is `exec` of the decoded instruction (R31, R34), said before `exec` is
taken any further. -/

namespace Sys2Proof.Machine

theorem step_decode {s : State} {w : Word} {rest : List Invocation} (h : s.pending = .decode w :: rest) :
    step s = exec (decodeWord s.params w) { s with pending := rest } := by
  rw [step, takeInvocation_cons s _ rest h]

/-- Settles O5. -/
theorem stepRunsTheDecodedInstruction : Obligations.StepRunsTheDecodedInstruction := by
  intro s w rest i pending decoded
  rw [step_decode pending, decoded]

/-- Settles O7: taking the offered word off the list gives the caller's state back. -/
theorem offeredWordRunsNext : Obligations.OfferedWordRunsNext := by
  intro s nbits w
  exact step_decode (State.offerWord_pending s nbits w)

end Sys2Proof.Machine
end

section
/-! Every word is the word of exactly one instruction (R57, R90, R121): what a word decodes to is well-formed and of the
word's format, the rest is the two round trips. -/

namespace Sys2Proof

open Sys2Proof.Machine

section
variable (p : Params) (w : Word)

theorem decodeR_format : (decodeR p w).format = .R := by
  rw [decodeR]
  split <;> rfl

theorem decodeB_format : (decodeB p w).format = .B := by
  rw [decodeB]
  split <;> rfl

theorem decodeM_format : (decodeM p w).format = .M := by
  rw [decodeM]
  split <;> rfl

/-- R121: the tag decides the row, even where a parameter carries a wrong tag. -/
theorem decodeWord_format : (decodeWord p w).format = formatOfWord w := by
  cases format : formatOfWord w with
  | R => rw [decodeWord_of_format_R p format, decodeR_format]
  | I => rw [decodeWord_of_format_I p format, decodeI, Instr.format]
  | B => rw [decodeWord_of_format_B p format, decodeB_format]
  | M => rw [decodeWord_of_format_M p format, decodeM_format]

/-- A generic row is reached only where the opcode field, which is the tag over the operation number, is not the named
one. -/
theorem decodeWord_wf : (decodeWord p w).wf p = true := by
  have opcode := append_number_slice w
  cases format : formatOfWord w with
  | R =>
    rw [format, formatNumber] at opcode
    rw [decodeWord_of_format_R p format, decodeR]
    split
    next => rfl
    next unnamed => exact decide_eq_true (opcode.trans_ne unnamed)
  | I => rw [decodeWord_of_format_I p format, decodeI, Instr.wf]
  | B =>
    rw [format, formatNumber] at opcode
    rw [decodeWord_of_format_B p format, decodeB]
    split
    next => rfl
    next unnamed => exact decide_eq_true (opcode.trans_ne unnamed)
  | M =>
    rw [format, formatNumber] at opcode
    rw [decodeWord_of_format_M p format, decodeM]
    split
    next => rfl
    next unnamed => exact decide_eq_true (opcode.trans_ne unnamed)

end

/-- Settles O2: existence is `encode_decodeWord`, uniqueness is `decodeWord_encode`. -/
theorem everyWordIsTheWordOfOneInstruction : Obligations.EveryWordIsTheWordOfOneInstruction := by
  refine ⟨fun p w => ⟨decodeWord_wf p w, encode_decodeWord p w, decodeWord_format p w⟩, ?unique⟩
  case unique =>
    rintro p _ i hp hi rfl
    exact decodeWord_encode (Params.tagsAgree_of_wf hp) hi

end Sys2Proof
end

section
/-! The format of an opcode and of a word: by the top two bits, and by the ranges of R44's table. -/

namespace Sys2Proof.Machine

theorem formatTagOf_eq_iff_tag (op : Opcode) (f : Format) :
    formatTagOf op = f ↔ op.extractLsb' 10 2 = formatNumber f := by
  rw [← formatNumber_formatTagOf]
  exact (Function.LeftInverse.injective formatOfTag_formatNumber).eq_iff.symm

theorem formatOfWord_eq_iff_tag (w : Word) (f : Format) :
    formatOfWord w = f ↔ w.extractLsb' 62 2 = formatNumber f := by
  rw [formatOfWord_eq_formatTagOf_opcodeOf, formatTagOf_eq_iff_tag, opcodeOf_eq_slice, tag_slice_of_word]

/-- A format is a range of 2^10 opcodes. -/
theorem formatTagOf_eq_iff_range (op : Opcode) (f : Format) :
    formatTagOf op = f
      ↔ (formatNumber f).toNat * 1024 ≤ op.toNat ∧ op.toNat < (formatNumber f).toNat * 1024 + 1024 := by
  rw [formatTagOf_eq_iff_tag, tag_slice_eq_iff_range]

/-- A format is a range of 2^62 words. -/
theorem formatOfWord_eq_iff_range (w : Word) (f : Format) :
    formatOfWord w = f
      ↔ (formatNumber f).toNat * 2 ^ 62 ≤ w.toNat ∧ w.toNat < (formatNumber f).toNat * 2 ^ 62 + 2 ^ 62 := by
  have := w.isLt
  rw [formatOfWord_eq_iff_tag, ← BitVec.toNat_inj, extractLsb'_toNat_div]
  omega

/-- Settles O24: per format, the tag and then its range with the table's inclusive ends. -/
theorem topTwoBitsSelectTheFormat : Obligations.TopTwoBitsSelectTheFormat := by
  constructor
  · intro op
    have := op.isLt
    refine ⟨formatTagOf_eq_iff_tag op .R, ?_, formatTagOf_eq_iff_tag op .I, ?_, formatTagOf_eq_iff_tag op .B, ?_,
      formatTagOf_eq_iff_tag op .M, ?_⟩ <;>
    · simp only [formatTagOf_eq_iff_range, formatNumber, BitVec.toNat_ofNat]
      omega
  · intro w
    have := w.isLt
    refine ⟨formatOfWord_eq_iff_tag w .R, ?_, formatOfWord_eq_iff_tag w .I, ?_, formatOfWord_eq_iff_tag w .B, ?_,
      formatOfWord_eq_iff_tag w .M, ?_⟩ <;>
    · simp only [formatOfWord_eq_iff_range, formatNumber, BitVec.toNat_ofNat]
      omega

end Sys2Proof.Machine
end

section
/-! The logical fields as readings of the physical ones (section 4 of spec/30_encoding.md): neighbouring slices of a
word join to one slice. -/

namespace Sys2Proof.Machine

variable (w : Word)

theorem immediateOf_eq_extendedOf : immediateOf w = extendedOf w := rfl

theorem extendedOf_eq_append : extendedOf w = shiftTypeOf w ++ shiftAmountOf w ++ w.extractLsb' 0 26 := by
  rw [shiftTypeOf_eq_slice, shiftAmountOf_eq_slice, extendedOf_eq_slice]
  simp only [BitVec.extractLsb'_append_extractLsb'_eq_extractLsb']

theorem memoryOffsetOf_eq_append : memoryOffsetOf w = shiftAmountOf w ++ w.extractLsb' 0 26 := by
  rw [shiftAmountOf_eq_slice, memoryOffsetOf_eq_slice]
  simp only [BitVec.extractLsb'_append_extractLsb'_eq_extractLsb']

theorem rdOf_slice_low_bit : (rdOf w).extractLsb' 0 1 = w.extractLsb' 47 1 := by
  apply BitVec.eq_of_toNat_eq
  rw [rdOf_eq_slice]
  simp only [extractLsb'_toNat_div]
  omega

theorem branchOffsetOf_eq_append :
    branchOffsetOf w = (rdOf w).extractLsb' 0 1 ++ rnOf w ++ rmOf w ++ modeOf w ++ extendedOf w := by
  rw [rdOf_slice_low_bit, rnOf_eq_slice, rmOf_eq_slice, modeOf_eq_slice, extendedOf_eq_slice, branchOffsetOf_eq_slice]
  simp only [BitVec.extractLsb'_append_extractLsb'_eq_extractLsb']

theorem opcodeOf_eq_append : opcodeOf w = tagOf w ++ operationNumberOf (opcodeOf w) := by
  rw [operationNumberOf_eq_slice, tagOf_eq_slice, tag_slice_of_word, opcodeOf_eq_slice, append_slices]

/-- Settles O33. -/
theorem logicalFieldsReadThePhysicalBits : Obligations.LogicalFieldsReadThePhysicalBits := by
  intro w
  exact ⟨immediateOf_eq_extendedOf w, extendedOf_eq_append w, memoryOffsetOf_eq_append w, branchOffsetOf_eq_append w,
    opcodeOf_eq_append w⟩

end Sys2Proof.Machine
end

section
/-! Shift sub-fields OR-ed into a word (R50): each packed sub-field is an R-type pattern with zeros elsewhere, so the
OR works field by field. -/

namespace Sys2Proof.Machine

theorem rWord_or_rWord (op op' : Opcode) (rd rd' rn rn' rm rm' : RegNum) (mode mode' : BitVec 3)
    (st st' : BitVec 2) (sa sa' : BitVec 6) (rest rest' : BitVec 26) :
    rWord op rd rn rm mode st sa rest ||| rWord op' rd' rn' rm' mode' st' sa' rest'
      = rWord (op ||| op') (rd ||| rd') (rn ||| rn') (rm ||| rm') (mode ||| mode') (st ||| st') (sa ||| sa')
          (rest ||| rest') :=
  BitVec.or_append.trans (by simp only [BitVec.or_append, rWord])

theorem packAt_shiftType (st : BitVec 2) : packAt st 32 = rWord 0#12 0#5 0#5 0#5 0#3 st 0#6 0#26 := by
  apply BitVec.eq_of_toNat_eq
  simp [packAt_toNat, rWord_toNat]

theorem packAt_shiftAmount (sa : BitVec 6) : packAt sa 26 = rWord 0#12 0#5 0#5 0#5 0#3 0#2 sa 0#26 := by
  apply BitVec.eq_of_toNat_eq
  simp [packAt_toNat, rWord_toNat]

theorem withShiftFields_rWord (op : Opcode) (rd rn rm : RegNum) (mode : BitVec 3) (st st' : BitVec 2)
    (sa sa' : BitVec 6) (rest : BitVec 26) :
    withShiftFields (rWord op rd rn rm mode st sa rest) st' sa'
      = rWord op rd rn rm mode (st ||| st') (sa ||| sa') rest := by
  simp only [withShiftFields, packAt_shiftType, packAt_shiftAmount, rWord_or_rWord, BitVec.or_zero]

/-- A built word has 0 where the sub-fields go (R86), so they stand there as given. -/
theorem withShiftFields_buildR (op : Opcode) (rd rn rm : RegIn) (st : BitVec 2) (sa : BitVec 6) :
    withShiftFields (buildR op rd rn rm) st sa
      = rWord op (truncateToWidth rd 5) (truncateToWidth rn 5) (truncateToWidth rm 5) 0#3 st sa 0#26 := by
  rw [buildR_eq_pattern, withShiftFields_rWord, BitVec.zero_or, BitVec.zero_or]

theorem decodeRouted_rWord {op : Opcode} (h : formatTagOf op = .R) (rd rn rm : RegNum) (mode : BitVec 3)
    (st : BitVec 2) (sa : BitVec 6) (rest : BitVec 26) :
    decodeRouted (rWord op rd rn rm mode st sa rest) = .R op rd rn rm st sa := by
  rw [decodeRouted_of_opcode _ op (rWord_slice_op ..), h]
  simp only [rWord_slice_rd, rWord_slice_rn, rWord_slice_rm, rWord_slice_st, rWord_slice_sa]

/-- `build_r` takes no shift sub-field, and truncates truncated registers no further (R80, R116). -/
theorem reencode_truncated_R (op : Opcode) (rd rn rm : RegIn) (st : BitVec 2) (sa : BitVec 6) :
    reencode (.R op (truncateToWidth rd 5) (truncateToWidth rn 5) (truncateToWidth rm 5) st sa)
      = buildR op rd rn rm := by
  simp [reencode, buildR_eq_pattern]

/-- Settles O50. -/
theorem shiftFieldsOredInDecodeAsSet : Obligations.ShiftFieldsOredInDecodeAsSet := by
  intro op rd rn rm st sa format
  rw [withShiftFields_buildR, decodeRouted_rWord format, modeOf_eq_slice, rWord_slice_mode]
  exact ⟨rfl, rfl, reencode_truncated_R ..⟩

end Sys2Proof.Machine
end

section
/-! The meaning of the mode field (R51, R95): what a consumer gets out of `MODE_SEMANTICS`, by the format of the word's
opcode, and the mode bits that the builders leave 0. -/

namespace Sys2Proof.Machine

theorem isBType_eq_decide_format (op : Opcode) : isBType op = decide (formatTagOf op = .B) := by
  rw [isBType_eq_decide, decide_eq_decide, formatTagOf_eq_iff_tag, formatNumber]

/-- The specification of `modeMeaning`. -/
theorem modeMeaning_eq_slices (c : ConsumerParams) (w : Word) :
    modeMeaning c w = if formatTagOf (w.extractLsb' 52 12) = .B then none
      else c.modeSemantics.lookup (w.extractLsb' 52 12, w.extractLsb' 34 3) := by
  simp only [modeMeaning, isBType_eq_decide_format, decide_eq_true_eq, opcodeOf_eq_slice, modeOf_eq_slice]

theorem modeMeaning_of_format_B (c : ConsumerParams) {w : Word} (h : formatOfWord w = .B) :
    modeMeaning c w = none := by
  rw [formatOfWord_eq_formatTagOf_opcodeOf, opcodeOf_eq_slice] at h
  rw [modeMeaning_eq_slices, if_pos h]

theorem modeMeaning_of_fields (c : ConsumerParams) {w : Word} {op : Opcode} {mode : BitVec 3}
    (notB : formatTagOf op ≠ .B) (opcode : opcodeOf w = op) (modeBits : modeOf w = mode) :
    modeMeaning c w = c.modeSemantics.lookup (op, mode) := by
  rw [opcodeOf_eq_slice] at opcode
  rw [modeOf_eq_slice] at modeBits
  rw [modeMeaning_eq_slices, opcode, modeBits, if_neg notB]

theorem modeMeaning_of_nothing_assigned {c : ConsumerParams} (h : c.modeSemantics = []) (w : Word) :
    modeMeaning c w = none := by
  rw [modeMeaning_eq_slices, h, List.lookup_nil, ite_self]

/-- No format counts `mode` among its valid fields, and it is no shift sub-field (R51, R160). -/
theorem mayRead_mode (c : ConsumerParams) (w : Word) : mayRead c w .mode = false := by
  have notShift : [Field.shiftType, Field.shiftAmount].contains .mode = false := by decide
  rw [mayRead, notShift, Bool.and_false]
  cases formatOfWord w <;> decide

/-! ### The mode bits of built words -/

theorem modeOf_buildR (op : Opcode) (rd rn rm : RegIn) : modeOf (buildR op rd rn rm) = 0#3 := by
  rw [modeOf_eq_slice, buildR_eq_pattern, rWord_slice_mode]

/-- Bits [36:34] lie in the eight bits [41:34] that no operand of `build_i` is packed into. -/
theorem modeOf_buildI (op : Opcode) (rd rn : RegIn) (imm : ValIn) : modeOf (buildI op rd rn imm) = 0#3 := by
  have := (truncateToWidth imm 34).isLt
  apply BitVec.eq_of_toNat_eq
  rw [modeOf_eq_slice, buildI_eq_pattern, extractLsb'_toNat_div, iWord_toNat]
  simp only [BitVec.toNat_ofNat]
  omega

/-- Bits [36:34] lie in the ten bits [41:32] that no operand of `build_m` is packed into. -/
theorem modeOf_buildM (op : Opcode) (rd rn : RegIn) (offset : ValIn) : modeOf (buildM op rd rn offset) = 0#3 := by
  have := (truncateToWidth offset 32).isLt
  apply BitVec.eq_of_toNat_eq
  rw [modeOf_eq_slice, buildM_eq_pattern, extractLsb'_toNat_div, mWord_toNat]
  simp only [BitVec.toNat_ofNat]
  omega

/-- Settles O53. -/
theorem modeMeansOnlyWhatTheParameterSays : Obligations.ModeMeansOnlyWhatTheParameterSays := by
  intro c w w' op rd rn rm v
  refine ⟨fun h => modeMeaning_of_nothing_assigned h w, modeMeaning_of_format_B c, mayRead_mode c w, ?sameFields,
    ?buildR, ?buildI, ?buildM⟩
  case sameFields =>
    intro opcode mode
    rw [modeMeaning_eq_slices, modeMeaning_eq_slices, opcode, mode]
  case buildR =>
    intro format
    exact modeMeaning_of_fields c (by simp [format]) (opcodeOf_buildR ..) (modeOf_buildR ..)
  case buildI =>
    intro format
    exact modeMeaning_of_fields c (by simp [format]) (opcodeOf_buildI ..) (modeOf_buildI ..)
  case buildM =>
    intro format
    exact modeMeaning_of_fields c (by simp [format]) (opcodeOf_buildM ..) (modeOf_buildM ..)

end Sys2Proof.Machine
end

section
/-! The opcode classifier's own laws: composing an opcode and taking it apart (R70, R77), and the partition of the
opcodes by the four predicates (R76). -/

namespace Sys2Proof.Machine

/-! ### Composing an opcode and taking it apart -/

/-- The two parts of an opcode make it (R77). -/
theorem makeOpcode_of_parts (op : Opcode) :
    makeOpcode (formatNumber (formatTagOf op)) (operationNumberOf op) = op := by
  rw [formatNumber_formatTagOf, operationNumberOf_eq_slice, makeOpcode_eq_append, append_slices]

theorem makeOpcode_toNat (tag : Tag) (n : OperationNumber) :
    (makeOpcode tag n).toNat = tag.toNat * 1024 + n.toNat := by
  rw [makeOpcode_eq_append]
  exact append_toNat tag n

theorem formatNumber_formatTagOf_makeOpcode (tag : Tag) (n : OperationNumber) :
    formatNumber (formatTagOf (makeOpcode tag n)) = tag := by
  rw [formatNumber_formatTagOf, makeOpcode_eq_append, slice_tag_append]

theorem operationNumberOf_makeOpcode (tag : Tag) (n : OperationNumber) :
    operationNumberOf (makeOpcode tag n) = n := by
  rw [operationNumberOf_eq_slice, makeOpcode_eq_append, slice_number_append]

theorem operationNumberOf_toNat (op : Opcode) : (operationNumberOf op).toNat = op.toNat % 1024 := by
  have := extractLsb'_toNat_div op 0 10
  rw [operationNumberOf_eq_slice]
  omega

/-- Settles O26. -/
theorem operationNumberIsTheLowTenBits : Obligations.OperationNumberIsTheLowTenBits := by
  refine ⟨fun op => ?eachOpcode, ?examples⟩
  case eachOpcode => exact ⟨operationNumberOf_eq_slice op, operationNumberOf_toNat op, makeOpcode_of_parts op⟩
  case examples => decide

/-- Settles O25: both parts are read back from the composed opcode, and any opcode is composed of its own two parts. -/
theorem makeOpcodeIsABijection : Obligations.MakeOpcodeIsABijection := by
  refine ⟨fun tag n => ?eachPair, fun op => ?onto, ?examples⟩
  case eachPair =>
    exact ⟨makeOpcode_toNat tag n, formatNumber_formatTagOf_makeOpcode tag n, operationNumberOf_makeOpcode tag n⟩
  case onto => exact ⟨_, _, makeOpcode_of_parts op⟩
  case examples => decide

/-! ### The partition law -/

theorem decide_tag_eq_decide_format (op : Opcode) (f : Format) :
    decide (op.extractLsb' 10 2 = formatNumber f) = decide (formatTagOf op = f) :=
  decide_eq_decide.mpr (formatTagOf_eq_iff_tag op f).symm

/-- The numbers below `N` that lie in a range are as many as the range is long. -/
theorem countP_range_of_interval {q : Nat → Bool} {a b N : Nat} (hb : b ≤ N)
    (h : ∀ n < N, q n = true ↔ a ≤ n ∧ n < b) : (List.range N).countP q = b - a := by
  have interval : (Finset.range N).filter (fun n => q n = true) = Finset.Ico a b := by
    ext n
    rw [Finset.mem_filter, Finset.mem_range, Finset.mem_Ico]
    constructor
    · rintro ⟨below, holds⟩
      exact (h n below).mp holds
    · rintro ⟨low, high⟩
      exact ⟨by omega, (h n (by omega)).mpr ⟨low, high⟩⟩
  calc (List.range N).countP q
      = Nat.count (fun n => q n = true) N := by simp [Nat.count]
    _ = b - a := by rw [Nat.count_eq_card_filter_range, interval, Nat.card_Ico]

/-- A predicate that tests for one tag holds of the 1024 opcodes of that tag's range. -/
theorem countP_of_tests_tag {q : Opcode → Bool} {t : Tag} (h : ∀ op, q op = decide (op.extractLsb' 10 2 = t)) :
    ((List.range 4096).countP fun n => q (BitVec.ofNat 12 n)) = 1024 := by
  have := t.isLt
  have count := countP_range_of_interval (q := fun n => q (BitVec.ofNat 12 n))
    (a := t.toNat * 1024) (b := t.toNat * 1024 + 1024) (N := 4096) (by omega) fun n below => by
      rw [h, decide_eq_true_iff, tag_slice_eq_iff_range, BitVec.toNat_ofNat, Nat.mod_eq_of_lt below]
  rw [count, Nat.add_sub_cancel_left]

/-- Settles O23: each predicate is a test for one tag, so it names one format and holds of one range of opcodes. -/
theorem formatPredicatesPartitionTheOpcodes : Obligations.FormatPredicatesPartitionTheOpcodes := by
  refine ⟨fun op => ⟨?exactlyOne, ?isR, ?isI, ?isB, ?isM⟩, ?sizes⟩
  case exactlyOne =>
    obtain ⟨exactlyOne, -⟩ := classify_meets_law op
    exact exactlyOne
  case isR => exact (isRType_eq_decide op).trans (decide_tag_eq_decide_format op .R)
  case isI => exact (isIType_eq_decide op).trans (decide_tag_eq_decide_format op .I)
  case isB => exact isBType_eq_decide_format op
  case isM => exact (isMType_eq_decide op).trans (decide_tag_eq_decide_format op .M)
  case sizes =>
    simp only [List.forall_mem_cons]
    exact ⟨countP_of_tests_tag isRType_eq_decide, countP_of_tests_tag isIType_eq_decide,
      countP_of_tests_tag isBType_eq_decide, countP_of_tests_tag isMType_eq_decide,
      List.forall_mem_nil _⟩

end Sys2Proof.Machine
end

section
/-! The builders of the encoder (R80 to R86): the named truncation as a number, each built word as a number, the bits
that no operand reaches, and the opcode field as the only place where `op` stands. -/

namespace Sys2Proof.Machine

/-! ### Truncation -/

section
variable {m : Nat} (v : BitVec m) (n : Nat)

theorem truncateToWidth_toNat : (truncateToWidth v n).toNat = v.toNat % 2 ^ n := by
  rw [truncateToWidth_eq_setWidth, BitVec.toNat_setWidth]

theorem truncateToWidth_of_lt {v : BitVec m} {n : Nat} (fits : v.toNat < 2 ^ n) :
    (truncateToWidth v n).toNat = v.toNat := by
  rw [truncateToWidth_toNat, Nat.mod_eq_of_lt fits]

/-- The first value that does not fit wraps to 0. -/
theorem truncateToWidth_of_eq_two_pow {v : BitVec m} {n : Nat} (edge : v.toNat = 2 ^ n) : truncateToWidth v n = 0 := by
  apply BitVec.eq_of_toNat_eq
  rw [truncateToWidth_toNat, edge, Nat.mod_self]
  exact BitVec.toNat_zero.symm

end

/-- Settles O27. -/
theorem truncationIsTheValueModulo : Obligations.TruncationIsTheValueModulo := by
  refine ⟨fun m n v => ⟨truncateToWidth_toNat v n, ?masked, truncateToWidth_of_lt, truncateToWidth_of_eq_two_pow⟩,
    ?largest, ?wrapped⟩
  case masked => rw [truncateToWidth_toNat, Nat.and_two_pow_sub_one_eq_mod]
  case largest => decide
  case wrapped => decide

section
variable (op : Opcode) (rd rn rm : RegIn) (v : ValIn)

/-! ### Built words as numbers -/

theorem buildR_toNat : (buildR op rd rn rm).toNat
    = op.toNat * 2 ^ 52 + rd.toNat % 32 * 2 ^ 47 + rn.toNat % 32 * 2 ^ 42 + rm.toNat % 32 * 2 ^ 37 := by
  rw [buildR_eq_pattern, rWord_toNat]
  simp [truncateToWidth_toNat]

theorem buildI_toNat : (buildI op rd rn v).toNat
    = op.toNat * 2 ^ 52 + rd.toNat % 32 * 2 ^ 47 + rn.toNat % 32 * 2 ^ 42 + v.toNat % 2 ^ 34 := by
  rw [buildI_eq_pattern, iWord_toNat]
  simp [truncateToWidth_toNat]

theorem buildB_toNat : (buildB op v).toNat = op.toNat * 2 ^ 52 + v.toNat % 2 ^ 48 := by
  rw [buildB_eq_pattern, bWord_toNat]
  simp [truncateToWidth_toNat]

theorem buildM_toNat : (buildM op rd rn v).toNat
    = op.toNat * 2 ^ 52 + rd.toNat % 32 * 2 ^ 47 + rn.toNat % 32 * 2 ^ 42 + v.toNat % 2 ^ 32 := by
  rw [buildM_eq_pattern, mWord_toNat]
  simp [truncateToWidth_toNat]

/-! ### The bits that are not packed -/

/-- The two masks of a format are disjoint, so a word inside one misses the other. -/
theorem and_ignoredMask_of_and_meaningfulMask {w : Word} {f : Format} (h : w &&& meaningfulMask f = w) :
    w &&& ignoredMask f = 0#64 := by
  rw [← h, BitVec.and_assoc, meaningfulMask_and_ignoredMask, BitVec.and_zero]

theorem buildR_and_ignoredMask : buildR op rd rn rm &&& ignoredMask .R = 0#64 := by
  apply and_ignoredMask_of_and_meaningfulMask
  rw [buildR_eq_pattern, rWord_and_meaningfulMask]

theorem buildI_and_ignoredMask : buildI op rd rn v &&& ignoredMask .I = 0#64 := by
  apply and_ignoredMask_of_and_meaningfulMask
  rw [buildI_eq_pattern, iWord_and_meaningfulMask]

theorem buildB_and_ignoredMask : buildB op v &&& ignoredMask .B = 0#64 := by
  apply and_ignoredMask_of_and_meaningfulMask
  rw [buildB_eq_pattern, bWord_and_meaningfulMask]

theorem buildM_and_ignoredMask : buildM op rd rn v &&& ignoredMask .M = 0#64 := by
  apply and_ignoredMask_of_and_meaningfulMask
  rw [buildM_eq_pattern, mWord_and_meaningfulMask]

theorem shiftTypeOf_buildR : shiftTypeOf (buildR op rd rn rm) = 0#2 := by
  rw [shiftTypeOf_eq_slice, buildR_eq_pattern, rWord_slice_st]

theorem shiftAmountOf_buildR : shiftAmountOf (buildR op rd rn rm) = 0#6 := by
  rw [shiftAmountOf_eq_slice, buildR_eq_pattern, rWord_slice_sa]

end

/-- A word is canonical when the format of its opcode ignores none of its set bits (R61). -/
theorem canonical_of_opcodeOf {w : Word} {op : Opcode} {f : Format} (opcode : opcodeOf w = op)
    (format : formatTagOf op = f) (unpacked : w &&& ignoredMask f = 0#64) : canonical w = true := by
  subst opcode format
  exact beq_iff_eq.mpr unpacked

/-! ### The opcode field -/

/-- The 52 bits below the opcode field (R41). -/
def belowOpcodeMask : Word := 0x000FFFFFFFFFFFFF#64

theorem and_belowOpcodeMask_toNat (w : Word) : (w &&& belowOpcodeMask).toNat = w.toNat % 2 ^ 52 := by
  rw [BitVec.toNat_and]
  exact Nat.and_two_pow_sub_one_eq_mod _ 52

theorem packAt_opcode_and_belowOpcodeMask (op : Opcode) : packAt op 52 &&& belowOpcodeMask = 0#64 := by
  apply BitVec.eq_of_toNat_eq
  rw [and_belowOpcodeMask_toNat, packAt_toNat op 52 (by decide), Nat.mul_mod_left, BitVec.toNat_ofNat, Nat.zero_mod]

theorem and_belowOpcodeMask_of_opcodeOf_zero {w : Word} (h : opcodeOf w = 0#12) : w &&& belowOpcodeMask = w := by
  have bound := w.isLt
  have field := congrArg BitVec.toNat h
  rw [opcodeOf_eq_slice, extractLsb'_toNat_div, BitVec.toNat_ofNat] at field
  apply BitVec.eq_of_toNat_eq
  rw [and_belowOpcodeMask_toNat]
  omega

theorem packAt_zero (n lo : Nat) : packAt 0#n lo = 0#64 := by
  rw [packAt, BitVec.setWidth_zero, BitVec.zero_shiftLeft]

/-- Every builder ORs its opcode into the word it builds for opcode 0. -/
theorem buildSelected_eq_opcode_or (x : EncoderIn) :
    buildSelected x = packAt x.op 52 ||| buildSelected { x with op := 0#12 } := by
  simp only [buildSelected]
  cases formatOfTag x.builderSel with
  | R => simp only [buildR, packAt_zero, BitVec.zero_or, BitVec.or_assoc]
  | I => simp only [buildI, packAt_zero, BitVec.zero_or, BitVec.or_assoc]
  | B => simp only [buildB, packAt_zero, BitVec.zero_or]
  | M => simp only [buildM, packAt_zero, BitVec.zero_or, BitVec.or_assoc]

/-- Below the opcode field stands the word for opcode 0, whatever the opcode. -/
theorem buildSelected_and_belowOpcodeMask (x : EncoderIn) :
    buildSelected x &&& belowOpcodeMask = buildSelected { x with op := 0#12 } := by
  have below := and_belowOpcodeMask_of_opcodeOf_zero (opcodeOf_buildSelected { x with op := 0#12 })
  rw [buildSelected_eq_opcode_or, BitVec.and_or_distrib_right, packAt_opcode_and_belowOpcodeMask, BitVec.zero_or, below]

/-! ### The statements about the builders -/

/-- Settles O28. -/
theorem buildersPackTheirOperands : Obligations.BuildersPackTheirOperands := by
  intro op rd rn rm v
  exact ⟨buildR_toNat .., buildI_toNat .., buildB_toNat .., buildM_toNat ..⟩

/-- Settles O29: a built word lies inside the meaningful mask of its builder's format. -/
theorem unpackedBitsAreZero : Obligations.UnpackedBitsAreZero := by
  intro op rd rn rm v
  refine ⟨?unpacked, ?subfields, fun format => ?canonicalR, fun format => ?canonicalI, fun format => ?canonicalB,
    fun format => ?canonicalM⟩
  case unpacked =>
    exact ⟨buildR_and_ignoredMask .., buildI_and_ignoredMask .., buildB_and_ignoredMask .., buildM_and_ignoredMask ..⟩
  case subfields =>
    exact ⟨modeOf_buildR .., modeOf_buildI .., modeOf_buildM .., shiftTypeOf_buildR .., shiftAmountOf_buildR ..⟩
  case canonicalR => exact canonical_of_opcodeOf (opcodeOf_buildR ..) format (buildR_and_ignoredMask ..)
  case canonicalI => exact canonical_of_opcodeOf (opcodeOf_buildI ..) format (buildI_and_ignoredMask ..)
  case canonicalB => exact canonical_of_opcodeOf (opcodeOf_buildB ..) format (buildB_and_ignoredMask ..)
  case canonicalM => exact canonical_of_opcodeOf (opcodeOf_buildM ..) format (buildM_and_ignoredMask ..)

/-- Settles O30: the words for two opcodes are the same word for opcode 0 with one opcode or the other OR-ed in. -/
theorem buildersDoNotLookAtTheTag : Obligations.BuildersDoNotLookAtTheTag := by
  intro x op
  refine ⟨opcodeOf_buildSelected x, ?otherOpcode⟩
  calc buildSelected { x with op := op }
      = packAt op 52 ||| buildSelected { x with op := 0#12 } := buildSelected_eq_opcode_or { x with op := op }
    _ = (buildSelected x &&& belowOpcodeMask) ||| (op.setWidth 64 <<< 52) := by
      rw [buildSelected_and_belowOpcodeMask, BitVec.or_comm, packAt]

end Sys2Proof.Machine
end

section
/-! What a consumer reads of an operand field (R91 to R103, R161): every accessor as a number, the two's-complement
reading of a field, and which integers come back from a built word.  A builder cuts the 64-bit pattern of an integer to
the pattern of the field's own width, and that pattern is what the accessor gives the consumer. -/

namespace Sys2Proof.Machine

/-! ### The accessors as numbers -/

theorem fieldAt_zero_toNat (n : Nat) (w : Word) (h : n ≤ 64) : (fieldAt 0 n w).toNat = w.toNat % 2 ^ n := by
  rw [fieldAt_toNat_div 0 n w h, pow_zero, Nat.div_one]

/-- Settles O31: every accessor is the same shift and mask, and four of them do not shift. -/
theorem accessorsAreUnsignedSlices : Obligations.AccessorsAreUnsignedSlices := by
  intro w
  have shifted (lo n : Nat) (h : n ≤ 64) := fieldAt_toNat_div lo n w h
  have unshifted (n : Nat) (h : n ≤ 64) := fieldAt_zero_toNat n w h
  exact ⟨shifted 52 12 (by decide), shifted 47 5 (by decide), shifted 42 5 (by decide), shifted 37 5 (by decide),
    shifted 34 3 (by decide), unshifted 34 (by decide), unshifted 34 (by decide), unshifted 48 (by decide),
    unshifted 32 (by decide), shifted 32 2 (by decide), shifted 26 6 (by decide)⟩

/-! ### The two's-complement reading -/

/-- The specification of `sext`: the library's two's-complement reading, for fields of any width. -/
theorem sext_eq_toInt {n : Nat} (v : BitVec n) : sext v = v.toInt := by
  have half : v.toNat < 2 ^ (n - 1) ↔ 2 * v.toNat < 2 ^ n := by
    cases n with
    | zero => simp [BitVec.eq_nil v]
    | succ m =>
      rw [Nat.add_sub_cancel, pow_succ]
      omega
  simp only [sext, half, BitVec.toInt_eq_toNat_cond, Nat.cast_pow, Nat.cast_ofNat]

theorem neg_two_pow_le_sext {n : Nat} (v : BitVec n) : -2 ^ (n - 1) ≤ sext v := by
  rw [sext_eq_toInt]
  exact BitVec.le_toInt v

theorem sext_lt_two_pow {n : Nat} (v : BitVec n) : sext v < 2 ^ (n - 1) := by
  rw [sext_eq_toInt]
  exact BitVec.toInt_lt

/-! ### Patterns of integers -/

theorem ofInt_toNat_eq_emod (n : Nat) (v : Int) : ((BitVec.ofInt n v).toNat : Int) = v % 2 ^ n := by
  rw [BitVec.toNat_ofInt, Int.toNat_of_nonneg (Int.emod_nonneg v (by positivity)), Nat.cast_pow, Nat.cast_ofNat]

/-- Cutting the pattern of an integer gives its pattern at the smaller width (R80): both are the integer modulo
`2 ^ n`. -/
theorem truncateToWidth_ofInt {m n : Nat} (h : n ≤ m) (v : Int) :
    truncateToWidth (BitVec.ofInt m v) n = BitVec.ofInt n v := by
  have divides : (2 : Int) ^ n ∣ 2 ^ m := pow_dvd_pow 2 h
  apply BitVec.eq_of_toNat_eq
  rw [truncateToWidth_toNat]
  zify
  rw [ofInt_toNat_eq_emod, ofInt_toNat_eq_emod, Int.emod_emod_of_dvd v divides]

theorem sext_ofInt {n : Nat} (pos : 0 < n) {v : Int} (lower : -2 ^ (n - 1) ≤ v) (upper : v < 2 ^ (n - 1)) :
    sext (BitVec.ofInt n v) = v := by
  rw [sext_eq_toInt, BitVec.toInt_ofInt_eq_self pos lower upper]

theorem ofInt_toNat_of_nonneg {n : Nat} {v : Int} (lower : 0 ≤ v) (upper : v < 2 ^ n) :
    ((BitVec.ofInt n v).toNat : Int) = v := by
  rw [ofInt_toNat_eq_emod, Int.emod_eq_of_lt lower upper]

/-- Without the sign extension a negative integer reads as one period more. -/
theorem ofInt_toNat_of_neg {n : Nat} {v : Int} (lower : -2 ^ n ≤ v) (upper : v < 0) :
    ((BitVec.ofInt n v).toNat : Int) = v + 2 ^ n := by
  rw [ofInt_toNat_eq_emod, ← Int.add_emod_right, Int.emod_eq_of_lt (by omega) (by omega)]

/-! ### The operand fields of built words -/

section
variable (op : Opcode) (rd rn : RegIn) (v : Int)

theorem branchOffsetOf_buildB_ofInt : branchOffsetOf (buildB op (BitVec.ofInt 64 v)) = BitVec.ofInt 48 v := by
  rw [branchOffsetOf_eq_slice, buildB_eq_pattern, bWord_slice_off, truncateToWidth_ofInt (by decide)]

theorem immediateOf_buildI_ofInt : immediateOf (buildI op rd rn (BitVec.ofInt 64 v)) = BitVec.ofInt 34 v := by
  rw [immediateOf_eq_slice, buildI_eq_pattern, iWord_slice_imm, truncateToWidth_ofInt (by decide)]

theorem memoryOffsetOf_buildM_ofInt : memoryOffsetOf (buildM op rd rn (BitVec.ofInt 64 v)) = BitVec.ofInt 32 v := by
  rw [memoryOffsetOf_eq_slice, buildM_eq_pattern, mWord_slice_off, truncateToWidth_ofInt (by decide)]

end

/-! ### What the consumer reads -/

section
variable {c : ConsumerParams}

theorem immediateValue_of_signed {w : Word} (h : opcodeOf w ∈ c.signedImmediates) :
    immediateValue c w = sext (immediateOf w) := if_pos h

theorem immediateValue_of_unsigned {w : Word} (h : opcodeOf w ∉ c.signedImmediates) :
    immediateValue c w = (immediateOf w).toNat := if_neg h

theorem memoryOffsetValue_of_signed (h : c.memoryOffsetSigned = true) (w : Word) :
    memoryOffsetValue c w = sext (memoryOffsetOf w) := if_pos h

theorem memoryOffsetValue_of_unsigned (h : c.memoryOffsetSigned = false) (w : Word) :
    memoryOffsetValue c w = (memoryOffsetOf w).toNat := if_neg (Bool.eq_false_iff.mp h)

end

/-- Settles O44: the word's offset field is the 48-bit pattern of the displacement. -/
theorem branchDisplacementsSurviveTheWord : Obligations.BranchDisplacementsSurviveTheWord := by
  refine ⟨fun op d lower upper => ⟨?readBack, fun negative => ?unsigned⟩, fun w => ?range⟩
  case readBack => rw [branchDisplacement, branchOffsetOf_buildB_ofInt, sext_ofInt (by decide) lower upper]
  case unsigned => rw [branchOffsetOf_buildB_ofInt, ofInt_toNat_of_neg (by omega) negative]
  case range => exact ⟨neg_two_pow_le_sext (branchOffsetOf w), sext_lt_two_pow (branchOffsetOf w)⟩

/-- Settles O45: the built word carries the opcode, so `IMM_SIGNED` is asked about it. -/
theorem immediatesSurviveTheWord : Obligations.ImmediatesSurviveTheWord := by
  intro c op rd rn
  refine ⟨fun listed v lower upper => ?signed, fun unlisted v lower upper => ?unsigned⟩
  case signed =>
    have opcode : opcodeOf (buildI op rd rn (BitVec.ofInt 64 v)) ∈ c.signedImmediates := by rwa [opcodeOf_buildI]
    rw [immediateValue_of_signed opcode, immediateOf_buildI_ofInt, sext_ofInt (by decide) lower upper]
  case unsigned =>
    have opcode : opcodeOf (buildI op rd rn (BitVec.ofInt 64 v)) ∉ c.signedImmediates := by rwa [opcodeOf_buildI]
    rw [immediateValue_of_unsigned opcode, immediateOf_buildI_ofInt, ofInt_toNat_of_nonneg lower upper]

/-- Settles O52, by the reading that `MOFF_SIGNED` says. -/
theorem memoryOffsetsSurviveTheWord : Obligations.MemoryOffsetsSurviveTheWord := by
  intro c op rd rn w
  refine ⟨fun signed => ?signed, fun unsigned => ?unsigned⟩
  case signed =>
    simp only [memoryOffsetValue_of_signed signed, memoryOffsetOf_buildM_ofInt]
    exact ⟨fun _ => sext_ofInt (n := 32) (by decide), neg_two_pow_le_sext (memoryOffsetOf w),
      sext_lt_two_pow (memoryOffsetOf w)⟩
  case unsigned =>
    have bound := (memoryOffsetOf w).isLt
    simp only [memoryOffsetValue_of_unsigned unsigned, memoryOffsetOf_buildM_ofInt]
    exact ⟨fun _ => ofInt_toNat_of_nonneg, fun _ lower => ofInt_toNat_of_neg (by omega), by omega, by omega⟩

end Sys2Proof.Machine
end

section
/-! Which operations are defined, and at which opcodes, changes no port (R121, R141): serving reads no parameter, and
the decoder, which does, gives the very word back. -/

namespace Sys2Proof.Machine

/-- What a step can be, and which next state it answers. -/
theorem step_cases (s : State) :
    (s.pending = [] ∧ step s = .next s)
    ∨ ∃ inv rest, s.pending = inv :: rest ∧ step s = .next (({ s with pending := rest } : State).serve inv) := by
  cases pending : s.pending with
  | nil => exact .inl ⟨rfl, step_idle s pending⟩
  | cons inv rest => exact .inr ⟨inv, rest, rfl, step_serves pending⟩

theorem step_answers (s : State) : ∃ t : State, step s = .next t := by
  obtain ⟨_, idle⟩ | ⟨_, _, _, serves⟩ := step_cases s
  · exact ⟨_, idle⟩
  · exact ⟨_, serves⟩

/-- One step under any parameters: the same next state, with those parameters. -/
theorem step_with_params {s t : State} (q : Params) (h : step s = .next t) :
    step { s with params := q } = .next { t with params := q } := by
  obtain ⟨pending, idle⟩ | ⟨inv, rest, pending, serves⟩ := step_cases s
  · rw [idle] at h
    cases h
    exact step_idle _ pending
  · rw [serves] at h
    cases h
    rw [← serve_with_params]
    exact step_serves pending

/-- Settles O18, by induction on the number of steps. -/
theorem parametersReachNoPort : Obligations.ParametersReachNoPort := by
  intro k
  induction k with
  | zero =>
    intro s t q run
    cases run
    rfl
  | succ k ih =>
    intro s t q run
    obtain ⟨u, first⟩ := step_answers s
    rw [run_succ_of_step k first] at run
    rw [run_succ_of_step k (step_with_params q first)]
    exact ih u t q run

end Sys2Proof.Machine
end

section
/-! What each accessor reads of each built word, whatever the opcode's format (R102, R114, R119): an operand the
builder packs there, the bits of an operand that covers the field, or the 0 of bits it does not pack. -/

namespace Sys2Proof.Machine

/-! ### Bits that no operand reaches, and bits inside the last operand -/

/-- A field that lies within a mask reads the same under it. -/
theorem slice_and_of_covers {w m : Word} {lo n : Nat} (covers : m.extractLsb' lo n = .allOnes n) :
    (w &&& m).extractLsb' lo n = w.extractLsb' lo n := by
  rw [BitVec.extractLsb'_and, covers, BitVec.and_allOnes]

/-- A field that lies within a mask the word misses reads 0. -/
theorem slice_eq_zero_of_and_eq_zero {w m : Word} {lo n : Nat} (missed : w &&& m = 0#64)
    (covers : m.extractLsb' lo n = .allOnes n) : w.extractLsb' lo n = 0#n := by
  rw [← slice_and_of_covers covers, missed, BitVec.extractLsb'_zero]

theorem slice_truncateToWidth {m n lo len : Nat} (v : BitVec m) (inside : lo + len ≤ n) :
    (truncateToWidth v n).extractLsb' lo len = v.extractLsb' lo len := by
  rw [truncateToWidth_eq_setWidth, BitVec.extractLsb'_setWidth_of_le inside]

section
variable (op : Opcode) (rd rn rm : RegIn) (v : ValIn) {lo len : Nat}

theorem buildI_slice_immediate (inside : lo + len ≤ 34) :
    (buildI op rd rn v).extractLsb' lo len = v.extractLsb' lo len := by
  rw [buildI_eq_pattern, iWord, BitVec.extractLsb'_append_eq_of_add_le inside, slice_truncateToWidth v inside]

theorem buildB_slice_offset (inside : lo + len ≤ 48) :
    (buildB op v).extractLsb' lo len = v.extractLsb' lo len := by
  rw [buildB_eq_pattern, bWord, BitVec.extractLsb'_append_eq_of_add_le inside, slice_truncateToWidth v inside]

theorem buildM_slice_offset (inside : lo + len ≤ 32) :
    (buildM op rd rn v).extractLsb' lo len = v.extractLsb' lo len := by
  rw [buildM_eq_pattern, mWord, BitVec.extractLsb'_append_eq_of_add_le inside, slice_truncateToWidth v inside]

/-! ### A word of `build_r` -/

theorem rdOf_buildR : rdOf (buildR op rd rn rm) = truncateToWidth rd 5 := by
  rw [rdOf_eq_slice, buildR_eq_pattern, rWord_slice_rd]

theorem rnOf_buildR : rnOf (buildR op rd rn rm) = truncateToWidth rn 5 := by
  rw [rnOf_eq_slice, buildR_eq_pattern, rWord_slice_rn]

theorem rmOf_buildR : rmOf (buildR op rd rn rm) = truncateToWidth rm 5 := by
  rw [rmOf_eq_slice, buildR_eq_pattern, rWord_slice_rm]

theorem immediateOf_buildR : immediateOf (buildR op rd rn rm) = 0 := by
  rw [immediateOf_eq_slice]
  exact slice_eq_zero_of_and_eq_zero (buildR_and_ignoredMask ..) (by decide)

theorem branchOffsetOf_buildR :
    branchOffsetOf (buildR op rd rn rm)
      = rd.extractLsb' 0 1 ++ truncateToWidth rn 5 ++ truncateToWidth rm 5 ++ 0#37 := by
  apply BitVec.eq_of_toNat_eq
  simp only [branchOffsetOf_eq_slice, extractLsb'_toNat_div, append_toNat, truncateToWidth_toNat, buildR_toNat,
    BitVec.toNat_ofNat]
  omega

theorem memoryOffsetOf_buildR : memoryOffsetOf (buildR op rd rn rm) = 0 := by
  rw [memoryOffsetOf_eq_slice]
  exact slice_eq_zero_of_and_eq_zero (buildR_and_ignoredMask ..) (by decide)

/-! ### A word of `build_i` -/

theorem rdOf_buildI : rdOf (buildI op rd rn v) = truncateToWidth rd 5 := by
  rw [rdOf_eq_slice, buildI_eq_pattern, iWord_slice_rd]

theorem rnOf_buildI : rnOf (buildI op rd rn v) = truncateToWidth rn 5 := by
  rw [rnOf_eq_slice, buildI_eq_pattern, iWord_slice_rn]

theorem immediateOf_buildI : immediateOf (buildI op rd rn v) = truncateToWidth v 34 := by
  rw [immediateOf_eq_slice, buildI_eq_pattern, iWord_slice_imm]

theorem rmOf_buildI : rmOf (buildI op rd rn v) = 0 := by
  rw [rmOf_eq_slice]
  exact slice_eq_zero_of_and_eq_zero (buildI_and_ignoredMask ..) (by decide)

theorem shiftTypeOf_buildI : shiftTypeOf (buildI op rd rn v) = v.extractLsb' 32 2 := by
  rw [shiftTypeOf_eq_slice, buildI_slice_immediate _ _ _ _ (by decide)]

theorem shiftAmountOf_buildI : shiftAmountOf (buildI op rd rn v) = v.extractLsb' 26 6 := by
  rw [shiftAmountOf_eq_slice, buildI_slice_immediate _ _ _ _ (by decide)]

theorem branchOffsetOf_buildI :
    branchOffsetOf (buildI op rd rn v) = rd.extractLsb' 0 1 ++ truncateToWidth rn 5 ++ 0#8 ++ v.extractLsb' 0 34 := by
  apply BitVec.eq_of_toNat_eq
  simp only [branchOffsetOf_eq_slice, extractLsb'_toNat_div, append_toNat, truncateToWidth_toNat, buildI_toNat,
    BitVec.toNat_ofNat]
  omega

theorem memoryOffsetOf_buildI : memoryOffsetOf (buildI op rd rn v) = v.extractLsb' 0 32 := by
  rw [memoryOffsetOf_eq_slice, buildI_slice_immediate _ _ _ _ (by decide)]

/-! ### A word of `build_b` -/

theorem branchOffsetOf_buildB : branchOffsetOf (buildB op v) = truncateToWidth v 48 := by
  rw [branchOffsetOf_eq_slice, buildB_eq_pattern, bWord_slice_off]

/-- Bit 47 of the offset is the low bit of the `rd` field; above it stand the four bits that are not packed. -/
theorem rdOf_buildB : rdOf (buildB op v) = (v.extractLsb' 47 1).setWidth 5 := by
  apply BitVec.eq_of_toNat_eq
  simp only [rdOf_eq_slice, extractLsb'_toNat_div, BitVec.toNat_setWidth, buildB_toNat]
  omega

theorem rnOf_buildB : rnOf (buildB op v) = v.extractLsb' 42 5 := by
  rw [rnOf_eq_slice, buildB_slice_offset _ _ (by decide)]

theorem rmOf_buildB : rmOf (buildB op v) = v.extractLsb' 37 5 := by
  rw [rmOf_eq_slice, buildB_slice_offset _ _ (by decide)]

theorem shiftTypeOf_buildB : shiftTypeOf (buildB op v) = v.extractLsb' 32 2 := by
  rw [shiftTypeOf_eq_slice, buildB_slice_offset _ _ (by decide)]

theorem shiftAmountOf_buildB : shiftAmountOf (buildB op v) = v.extractLsb' 26 6 := by
  rw [shiftAmountOf_eq_slice, buildB_slice_offset _ _ (by decide)]

theorem immediateOf_buildB : immediateOf (buildB op v) = v.extractLsb' 0 34 := by
  rw [immediateOf_eq_slice, buildB_slice_offset _ _ (by decide)]

theorem memoryOffsetOf_buildB : memoryOffsetOf (buildB op v) = v.extractLsb' 0 32 := by
  rw [memoryOffsetOf_eq_slice, buildB_slice_offset _ _ (by decide)]

/-! ### A word of `build_m` -/

theorem rdOf_buildM : rdOf (buildM op rd rn v) = truncateToWidth rd 5 := by
  rw [rdOf_eq_slice, buildM_eq_pattern, mWord_slice_rd]

theorem rnOf_buildM : rnOf (buildM op rd rn v) = truncateToWidth rn 5 := by
  rw [rnOf_eq_slice, buildM_eq_pattern, mWord_slice_rn]

theorem memoryOffsetOf_buildM : memoryOffsetOf (buildM op rd rn v) = truncateToWidth v 32 := by
  rw [memoryOffsetOf_eq_slice, buildM_eq_pattern, mWord_slice_off]

theorem rmOf_buildM : rmOf (buildM op rd rn v) = 0 := by
  rw [rmOf_eq_slice]
  exact slice_eq_zero_of_and_eq_zero (buildM_and_ignoredMask ..) (by decide)

theorem shiftTypeOf_buildM : shiftTypeOf (buildM op rd rn v) = 0 := by
  rw [shiftTypeOf_eq_slice]
  exact slice_eq_zero_of_and_eq_zero (buildM_and_ignoredMask ..) (by decide)

theorem shiftAmountOf_buildM : shiftAmountOf (buildM op rd rn v) = v.extractLsb' 26 6 := by
  rw [shiftAmountOf_eq_slice, buildM_slice_offset _ _ _ _ (by decide)]

/-- The two bits of the immediate above the offset are not packed. -/
theorem immediateOf_buildM : immediateOf (buildM op rd rn v) = (v.extractLsb' 0 32).setWidth 34 := by
  apply BitVec.eq_of_toNat_eq
  simp only [immediateOf_eq_slice, extractLsb'_toNat_div, BitVec.toNat_setWidth, buildM_toNat]
  omega

theorem branchOffsetOf_buildM :
    branchOffsetOf (buildM op rd rn v) = rd.extractLsb' 0 1 ++ truncateToWidth rn 5 ++ 0#10 ++ v.extractLsb' 0 32 := by
  apply BitVec.eq_of_toNat_eq
  simp only [branchOffsetOf_eq_slice, extractLsb'_toNat_div, append_toNat, truncateToWidth_toNat, buildM_toNat,
    BitVec.toNat_ofNat]
  omega

end

/-- Settles O37: the field's accessor reads the operand's truncation out of the built word. -/
theorem fieldsAreIsolated : Obligations.FieldsAreIsolated := by
  refine ⟨fun f => ?disjoint, ?buildR, ?buildI, ?buildB, ?buildM, ?accessorOfAnotherFormat⟩
  case disjoint => cases f <;> decide
  case buildR =>
    intro op op' rd rn rm rd' rn' rm' _ _
    simp only [opcodeOf_buildR, rdOf_buildR, rnOf_buildR, rmOf_buildR, and_self]
  case buildI =>
    intro op op' rd rn rd' rn' v v' _ _
    simp only [opcodeOf_buildI, rdOf_buildI, rnOf_buildI, immediateOf_buildI, and_self]
  case buildB =>
    intro op op' v v' _ _
    simp only [opcodeOf_buildB, branchOffsetOf_buildB, and_self]
  case buildM =>
    intro op op' rd rn rd' rn' v v' _ _
    simp only [opcodeOf_buildM, rdOf_buildM, rnOf_buildM, memoryOffsetOf_buildM, and_self]
  case accessorOfAnotherFormat => decide

end Sys2Proof.Machine
end

section
/-! The routed decode (R113, R114, R116, R119): the variant of the opcode's format over what the accessors read, for a
built word the operands, for any word the bits that its payload carries. -/

namespace Sys2Proof.Machine

/-! ### The variant of the opcode's format -/

section
variable {w : Word} {op : Opcode} (opcode : opcodeOf w = op)
include opcode

theorem decodeRouted_of_format_R (format : formatTagOf op = .R) :
    decodeRouted w = .R op (rdOf w) (rnOf w) (rmOf w) (shiftTypeOf w) (shiftAmountOf w) := by
  subst opcode
  rw [decodeRouted, formatOfTag_tagOf, formatOfWord_eq_formatTagOf_opcodeOf, format]

theorem decodeRouted_of_format_I (format : formatTagOf op = .I) :
    decodeRouted w = .I op (rdOf w) (rnOf w) (immediateOf w) := by
  subst opcode
  rw [decodeRouted, formatOfTag_tagOf, formatOfWord_eq_formatTagOf_opcodeOf, format]

theorem decodeRouted_of_format_B (format : formatTagOf op = .B) : decodeRouted w = .B op (branchOffsetOf w) := by
  subst opcode
  rw [decodeRouted, formatOfTag_tagOf, formatOfWord_eq_formatTagOf_opcodeOf, format]

theorem decodeRouted_of_format_M (format : formatTagOf op = .M) :
    decodeRouted w = .M op (rdOf w) (rnOf w) (memoryOffsetOf w) := by
  subst opcode
  rw [decodeRouted, formatOfTag_tagOf, formatOfWord_eq_formatTagOf_opcodeOf, format]

end

/-! ### Built words, read under their own format and under another -/

section
variable {op : Opcode} {rd rn rm : RegIn} {v : ValIn}

theorem decodeRouted_buildR (format : formatTagOf op = .R) :
    decodeRouted (buildR op rd rn rm)
      = .R op (truncateToWidth rd 5) (truncateToWidth rn 5) (truncateToWidth rm 5) 0 0 := by
  rw [decodeRouted_of_format_R (opcodeOf_buildR ..) format, rdOf_buildR, rnOf_buildR, rmOf_buildR, shiftTypeOf_buildR,
    shiftAmountOf_buildR]
  rfl

theorem decodeRouted_buildI (format : formatTagOf op = .I) :
    decodeRouted (buildI op rd rn v) = .I op (truncateToWidth rd 5) (truncateToWidth rn 5) (truncateToWidth v 34) := by
  rw [decodeRouted_of_format_I (opcodeOf_buildI ..) format, rdOf_buildI, rnOf_buildI, immediateOf_buildI]

theorem decodeRouted_buildB (format : formatTagOf op = .B) :
    decodeRouted (buildB op v) = .B op (truncateToWidth v 48) := by
  rw [decodeRouted_of_format_B (opcodeOf_buildB ..) format, branchOffsetOf_buildB]

theorem decodeRouted_buildM (format : formatTagOf op = .M) :
    decodeRouted (buildM op rd rn v) = .M op (truncateToWidth rd 5) (truncateToWidth rn 5) (truncateToWidth v 32) := by
  rw [decodeRouted_of_format_M (opcodeOf_buildM ..) format, rdOf_buildM, rnOf_buildM, memoryOffsetOf_buildM]

end

/-- Settles O34: operands that fit are not changed by the truncation. -/
theorem routedRoundTrip : Obligations.RoutedRoundTrip := by
  constructor
  · intro op rd rn rm imm boff moff
    refine ⟨fun format => ?_, fun format => ?_, fun format => ?_, fun format => ?_⟩
    · simp [decodeRouted_buildR format]
    · simp [decodeRouted_buildI format]
    · simp [decodeRouted_buildB format]
    · simp [decodeRouted_buildM format]
  · intro op rd rn rm v
    exact ⟨decodeRouted_buildR, decodeRouted_buildI, decodeRouted_buildB, decodeRouted_buildM⟩

/-- Settles O42: under each format, what its accessors read of the words of the other three builders. -/
theorem mismatchedWordsDecodeByTheirOpcode : Obligations.MismatchedWordsDecodeByTheirOpcode := by
  intro op rd rn rm v
  have opR := opcodeOf_buildR op rd rn rm
  have opI := opcodeOf_buildI op rd rn v
  have opB := opcodeOf_buildB op v
  have opM := opcodeOf_buildM op rd rn v
  refine ⟨fun format => ?readAsI, fun format => ?readAsR, fun format => ?readAsB, fun format => ?readAsM⟩
  case readAsI =>
    refine ⟨?fromR, ?fromB, ?fromM⟩
    case fromR => rw [decodeRouted_of_format_I opR format, rdOf_buildR, rnOf_buildR, immediateOf_buildR]
    case fromB => rw [decodeRouted_of_format_I opB format, rdOf_buildB, rnOf_buildB, immediateOf_buildB]
    case fromM => rw [decodeRouted_of_format_I opM format, rdOf_buildM, rnOf_buildM, immediateOf_buildM]
  case readAsR =>
    refine ⟨?fromI, ?fromB, ?fromM⟩
    case fromI =>
      rw [decodeRouted_of_format_R opI format, rdOf_buildI, rnOf_buildI, rmOf_buildI, shiftTypeOf_buildI,
        shiftAmountOf_buildI]
    case fromB =>
      rw [decodeRouted_of_format_R opB format, rdOf_buildB, rnOf_buildB, rmOf_buildB, shiftTypeOf_buildB,
        shiftAmountOf_buildB]
    case fromM =>
      rw [decodeRouted_of_format_R opM format, rdOf_buildM, rnOf_buildM, rmOf_buildM, shiftTypeOf_buildM,
        shiftAmountOf_buildM]
  case readAsB =>
    refine ⟨?fromR, ?fromI, ?fromM⟩
    case fromR => rw [decodeRouted_of_format_B opR format, branchOffsetOf_buildR]
    case fromI => rw [decodeRouted_of_format_B opI format, branchOffsetOf_buildI]
    case fromM => rw [decodeRouted_of_format_B opM format, branchOffsetOf_buildM]
  case readAsM =>
    refine ⟨?fromR, ?fromI, ?fromB⟩
    case fromR => rw [decodeRouted_of_format_M opR format, rdOf_buildR, rnOf_buildR, memoryOffsetOf_buildR]
    case fromI => rw [decodeRouted_of_format_M opI format, rdOf_buildI, rnOf_buildI, memoryOffsetOf_buildI]
    case fromB => rw [decodeRouted_of_format_M opB format, rdOf_buildB, rnOf_buildB, memoryOffsetOf_buildB]

/-! ### Canonical words -/

theorem meaningfulMask_or_ignoredMask (f : Format) : meaningfulMask f ||| ignoredMask f = .allOnes 64 := by
  cases f <;> decide

/-- The two masks of a format are complements, so a word misses one exactly when it lies inside the other. -/
theorem and_meaningfulMask_eq_self_iff (w : Word) (f : Format) :
    w &&& meaningfulMask f = w ↔ w &&& ignoredMask f = 0#64 := by
  refine ⟨and_ignoredMask_of_and_meaningfulMask, fun noIgnoredBit => ?_⟩
  calc w &&& meaningfulMask f
      = w &&& meaningfulMask f ||| w &&& ignoredMask f := by rw [noIgnoredBit, BitVec.or_zero]
    _ = w := by rw [← BitVec.and_or_distrib_left, meaningfulMask_or_ignoredMask, BitVec.and_allOnes]

theorem canonical_iff (w : Word) : canonical w = true ↔ w &&& meaningfulMask (formatOfWord w) = w := by
  rw [and_meaningfulMask_eq_self_iff]
  exact beq_iff_eq

/-- Settles O35. -/
theorem reencodingKeepsTheMeaningfulBits : Obligations.ReencodingKeepsTheMeaningfulBits := by
  refine ⟨fun w => ⟨reencode_decodeRouted w, ?whole⟩, ?specExample⟩
  case whole => rw [reencode_decodeRouted, canonical_iff]
  case specExample => decide

/-! ### The bits a payload carries -/

/-- The word bits from which the routed decode of a word of this format is read: its meaningful bits, and for R-type
the shift sub-fields, which the R variant carries besides (R113). -/
def carriedMask (f : Format) : Word := if f = .R then meaningfulMaskShifted else meaningfulMask f

/-- The carried bits as a payload has them: its re-encoding, with the shift sub-fields of an R payload OR-ed in. -/
def Payload.carriedWord (p : Payload) : Word :=
  match p with
  | .R _ _ _ _ st sa => withShiftFields (reencode p) st sa
  | .I _ _ _ _ | .B _ _ | .M _ _ _ _ => reencode p

theorem carriedWord_of_format_ne_R {p : Payload} (h : p.format ≠ .R) : p.carriedWord = reencode p := by
  cases p with
  | R => exact absurd rfl h
  | I | B | M => rfl

theorem rWord_and_carriedMask (op : Opcode) (rd rn rm : RegNum) (mode : BitVec 3) (st : BitVec 2)
    (sa : BitVec 6) (rest : BitVec 26) :
    rWord op rd rn rm mode st sa rest &&& carriedMask .R = rWord op rd rn rm 0#3 st sa 0#26 := by
  have mask : carriedMask .R
      = rWord (.allOnes 12) (.allOnes 5) (.allOnes 5) (.allOnes 5) 0#3 (.allOnes 2) (.allOnes 6) 0#26 := by decide
  simp only [mask, rWord_and_rWord, BitVec.and_allOnes, BitVec.and_zero]

/-- The payload of a word carries the bits that its format's mask names. -/
theorem carriedWord_decodeRouted (w : Word) : (decodeRouted w).carriedWord = w &&& carriedMask (formatOfWord w) := by
  by_cases format : formatOfWord w = .R
  · rw [decodeRouted_of_format_R rfl format, Payload.carriedWord, reencode, withShiftFields_buildR, format]
    conv_rhs => rw [word_eq_rWord w, rWord_and_carriedMask]
    simp [opcodeOf_eq_slice, rdOf_eq_slice, rnOf_eq_slice, rmOf_eq_slice, shiftTypeOf_eq_slice, shiftAmountOf_eq_slice]
  · have notR : (decodeRouted w).format ≠ .R := by rwa [decodeRouted_format]
    rw [carriedWord_of_format_ne_R notR, reencode_decodeRouted, carriedMask, if_neg format]

/-- A payload is read back from the bits it carries. -/
theorem decodeRouted_carriedWord {p : Payload} (h : formatTagOf p.opcode = p.format) :
    decodeRouted p.carriedWord = p := by
  cases p with
  | R op rd rn rm st sa =>
    rw [Payload.carriedWord, reencode, withShiftFields_buildR, decodeRouted_rWord (op := op) h]
    simp
  | I op rd rn imm =>
    rw [Payload.carriedWord, reencode, decodeRouted_buildI (op := op) h]
    simp
  | B op off =>
    rw [Payload.carriedWord, reencode, decodeRouted_buildB (op := op) h]
    simp
  | M op rd rn off =>
    rw [Payload.carriedWord, reencode, decodeRouted_buildM (op := op) h]
    simp

theorem decodeRouted_and_carriedMask (w : Word) :
    decodeRouted (w &&& carriedMask (formatOfWord w)) = decodeRouted w := by
  have ownFormat : formatTagOf (decodeRouted w).opcode = (decodeRouted w).format := by
    rw [decodeRouted_opcode, decodeRouted_format, formatOfWord_eq_formatTagOf_opcodeOf]
  rw [← carriedWord_decodeRouted, decodeRouted_carriedWord ownFormat]

/-- Every format's mask covers the opcode field, and so the bits that select the format. -/
theorem formatOfWord_and_carriedMask (w : Word) (f : Format) : formatOfWord (w &&& carriedMask f) = formatOfWord w := by
  have covers : (carriedMask f).extractLsb' 52 12 = .allOnes 12 := by cases f <;> decide
  simp only [formatOfWord_eq_formatTagOf_opcodeOf, opcodeOf_eq_slice, slice_and_of_covers covers]

/-- Words differ in no bit of a mask exactly when they are equal under it. -/
theorem xor_and_eq_zero_iff (w w' m : Word) : (w ^^^ w') &&& m = 0#64 ↔ w &&& m = w' &&& m := by
  have distrib : (w ^^^ w') &&& m = (w &&& m) ^^^ (w' &&& m) := by
    ext i hi
    simp [Bool.and_xor_distrib_right]
  rw [distrib, BitVec.xor_eq_zero_iff]

/-- Settles O36: a payload is its format and the carried bits, and those hold the opcode and so the format. -/
theorem routedDecodeDropsExactlyTheIgnoredBits : Obligations.RoutedDecodeDropsExactlyTheIgnoredBits := by
  intro w w'
  refine Iff.trans ?_ (xor_and_eq_zero_iff w w' (carriedMask (formatOfWord w))).symm
  constructor
  · intro samePayload
    have sameFormat : formatOfWord w = formatOfWord w' := by
      rw [← decodeRouted_format w, samePayload, decodeRouted_format]
    rw [← carriedWord_decodeRouted, samePayload, carriedWord_decodeRouted, sameFormat]
  · intro sameBits
    have sameFormat : formatOfWord w = formatOfWord w' := by
      rw [← formatOfWord_and_carriedMask w, sameBits, formatOfWord_and_carriedMask]
    rw [← decodeRouted_and_carriedMask w, sameBits, sameFormat, decodeRouted_and_carriedMask]

end Sys2Proof.Machine
end

section
/-! `encode_routed` and the typed operations: the builder that the opcode's tag calls for, by construction (R111, R112,
R120). -/

namespace Sys2Proof.Machine

/-! ### The builder of the opcode's format -/

section
variable {op : Opcode} {rd rn rm : RegIn} {imm boff moff : ValIn}

theorem encodeRouted_of_format_R (format : formatTagOf op = .R) :
    encodeRouted op rd rn rm imm boff moff = buildR op rd rn rm := by
  rw [encodeRouted, format]

theorem encodeRouted_of_format_I (format : formatTagOf op = .I) :
    encodeRouted op rd rn rm imm boff moff = buildI op rd rn imm := by
  rw [encodeRouted, format]

theorem encodeRouted_of_format_B (format : formatTagOf op = .B) :
    encodeRouted op rd rn rm imm boff moff = buildB op boff := by
  rw [encodeRouted, format]

theorem encodeRouted_of_format_M (format : formatTagOf op = .M) :
    encodeRouted op rd rn rm imm boff moff = buildM op rd rn moff := by
  rw [encodeRouted, format]

theorem routedInputs_match :
    builderMismatch (routedInputs op rd rn rm imm boff moff).builderSel op = false := by
  rw [builderMismatch_eq_false_iff]
  exact formatNumber_formatTagOf op

end

/-- Settles O38: each operand that plays no part is one that the builder of the format does not take. -/
theorem routedEncodingMatchesItsOpcode : Obligations.RoutedEncodingMatchesItsOpcode := by
  refine ⟨fun op rd rn rm rd' rn' rm' imm boff moff imm' boff' moff' => ?eachOpcode, driveEncoder_routedWord,
    by decide⟩
  have matched : builderMismatch (routedInputs op rd rn rm imm boff moff).builderSel op = false := routedInputs_match
  refine ⟨encodeRouted_of_format_R, encodeRouted_of_format_I, encodeRouted_of_format_B,
    encodeRouted_of_format_M, (buildSelected_of_match matched).symm, matched, canonical_encodeRouted ..,
    opcodeOf_encodeRouted .., fun format => ?blindR, fun format => ?blindI, fun format => ?blindB,
    fun format => ?blindM⟩
  case blindR => simp only [encodeRouted_of_format_R format]
  case blindI => simp only [encodeRouted_of_format_I format]
  case blindB => simp only [encodeRouted_of_format_B format]
  case blindM => simp only [encodeRouted_of_format_M format]

theorem formatTagOf_makeOpcode (t : Tag) (n : OperationNumber) : formatTagOf (makeOpcode t n) = formatOfTag t := by
  rw [formatTagOf_eq_formatOfTag, makeOpcode_eq_append, slice_tag_append]

/-- Settles O43: a variant composes its opcode with the tag whose builder it uses. -/
theorem typedOperationsCannotMismatch : Obligations.TypedOperationsCannotMismatch := by
  intro o
  cases o with
  | R n rd rn rm =>
    have format : formatTagOf (makeOpcode 0b00#2 n) = .R := formatTagOf_makeOpcode _ n
    exact ⟨opcodeOf_buildR .., canonical_of_opcodeOf (opcodeOf_buildR ..) format (buildR_and_ignoredMask ..), format,
      (encodeRouted_of_format_R format).symm⟩
  | I n rd rn imm =>
    have format : formatTagOf (makeOpcode 0b01#2 n) = .I := formatTagOf_makeOpcode _ n
    exact ⟨opcodeOf_buildI .., canonical_of_opcodeOf (opcodeOf_buildI ..) format (buildI_and_ignoredMask ..), format,
      (encodeRouted_of_format_I format).symm⟩
  | B n off =>
    have format : formatTagOf (makeOpcode 0b10#2 n) = .B := formatTagOf_makeOpcode _ n
    exact ⟨opcodeOf_buildB .., canonical_of_opcodeOf (opcodeOf_buildB ..) format (buildB_and_ignoredMask ..), format,
      (encodeRouted_of_format_B format).symm⟩
  | M n rd rn off =>
    have format : formatTagOf (makeOpcode 0b11#2 n) = .M := formatTagOf_makeOpcode _ n
    exact ⟨opcodeOf_buildM .., canonical_of_opcodeOf (opcodeOf_buildM ..) format (buildM_and_ignoredMask ..), format,
      (encodeRouted_of_format_M format).symm⟩

end Sys2Proof.Machine
end

section
/-! The two advisory bits (R117, R118): the mismatch bit compares tags, which is to compare formats; the overflow bit is
0 exactly when no operand of the builder in use loses anything to its truncation. -/

namespace Sys2Proof.Machine

/-! ### The mismatch bit -/

theorem builderMismatch_eq_true_iff (sel : Tag) (op : Opcode) :
    builderMismatch sel op = true ↔ sel ≠ op.extractLsb' 10 2 :=
  bne_iff_ne

/-- A tag names one format only, so tags differ exactly when formats do. -/
theorem builderMismatch_eq_true_iff_format (sel : Tag) (op : Opcode) :
    builderMismatch sel op = true ↔ formatOfTag sel ≠ formatTagOf op := by
  have injective := Function.LeftInverse.injective formatNumber_formatOfTag
  rw [builderMismatch_eq_true_iff, formatTagOf_eq_formatOfTag, injective.ne_iff]

/-- Settles O39. -/
theorem mismatchReportsTheWrongBuilder : Obligations.MismatchReportsTheWrongBuilder := by
  refine ⟨fun sel op => ?bit, fun x => builderMismatch_eq_true_iff x.builderSel x.op,
    fun op rd rn rm imm boff moff => ?word, fun op rd rn rm imm boff moff => routedInputs_match, ?examples⟩
  case bit => exact ⟨builderMismatch_eq_true_iff sel op, builderMismatch_eq_true_iff_format sel op⟩
  case word => exact ⟨rfl, rfl, rfl, rfl⟩
  case examples => decide

/-! ### The overflow bit -/

section
variable (rd rn rm : RegIn) (v : ValIn)

theorem overflowR_eq_true_iff : overflowR rd rn rm = true ↔ 32 ≤ rd.toNat ∨ 32 ≤ rn.toNat ∨ 32 ≤ rm.toNat := by
  simp only [overflowR, Bool.or_eq_true, decide_eq_true_eq, or_assoc]

theorem overflowR_eq_false_iff :
    overflowR rd rn rm = false ↔ rd.toNat < 2 ^ 5 ∧ rn.toNat < 2 ^ 5 ∧ rm.toNat < 2 ^ 5 := by
  rw [← Bool.not_eq_true, overflowR_eq_true_iff]
  omega

theorem overflowI_eq_true_iff : overflowI rd rn v = true ↔ 32 ≤ rd.toNat ∨ 32 ≤ rn.toNat ∨ 2 ^ 34 ≤ v.toNat := by
  simp only [overflowI, Bool.or_eq_true, decide_eq_true_eq, or_assoc]

theorem overflowI_eq_false_iff :
    overflowI rd rn v = false ↔ rd.toNat < 2 ^ 5 ∧ rn.toNat < 2 ^ 5 ∧ v.toNat < 2 ^ 34 := by
  rw [← Bool.not_eq_true, overflowI_eq_true_iff]
  omega

theorem overflowB_eq_true_iff : overflowB v = true ↔ 2 ^ 48 ≤ v.toNat := decide_eq_true_iff

theorem overflowB_eq_false_iff : overflowB v = false ↔ v.toNat < 2 ^ 48 := by
  rw [← Bool.not_eq_true, overflowB_eq_true_iff, not_le]

theorem overflowM_eq_true_iff : overflowM rd rn v = true ↔ 32 ≤ rd.toNat ∨ 32 ≤ rn.toNat ∨ 2 ^ 32 ≤ v.toNat := by
  simp only [overflowM, Bool.or_eq_true, decide_eq_true_eq, or_assoc]

theorem overflowM_eq_false_iff :
    overflowM rd rn v = false ↔ rd.toNat < 2 ^ 5 ∧ rn.toNat < 2 ^ 5 ∧ v.toNat < 2 ^ 32 := by
  rw [← Bool.not_eq_true, overflowM_eq_true_iff]
  omega

end

/-- Truncation loses nothing exactly when the value fits (R80). -/
theorem truncateToWidth_toNat_eq_iff {m : Nat} (v : BitVec m) (n : Nat) :
    (truncateToWidth v n).toNat = v.toNat ↔ v.toNat < 2 ^ n := by
  rw [truncateToWidth_toNat, Nat.mod_eq_iff_lt (Nat.two_pow_pos n).ne']

/-- A truncated value put back on its port fits. -/
theorem setWidth_truncateToWidth_toNat_lt {m : Nat} (v : BitVec m) (n : Nat) :
    ((truncateToWidth v n).setWidth m).toNat < 2 ^ n := by
  rw [BitVec.toNat_setWidth]
  exact lt_of_le_of_lt (Nat.mod_le ..) (truncateToWidth v n).isLt

/-- Truncated operands all fit. -/
theorem operandOverflow_truncated (x : EncoderIn) : operandOverflow x.truncated = false := by
  have fits {m : Nat} (v : BitVec m) (n : Nat) := setWidth_truncateToWidth_toNat_lt v n
  rw [operandOverflow]
  cases formatOfTag x.truncated.builderSel with
  | R => exact (overflowR_eq_false_iff ..).mpr ⟨fits x.rd 5, fits x.rn 5, fits x.rm 5⟩
  | I => exact (overflowI_eq_false_iff ..).mpr ⟨fits x.rd 5, fits x.rn 5, fits x.imm 34⟩
  | B => exact (overflowB_eq_false_iff ..).mpr (fits x.boffset 48)
  | M => exact (overflowM_eq_false_iff ..).mpr ⟨fits x.rd 5, fits x.rn 5, fits x.moffset 32⟩

/-- The builders truncate truncated operands no further. -/
theorem buildSelected_truncated (x : EncoderIn) : buildSelected x.truncated = buildSelected x := by
  simp only [buildSelected, EncoderIn.truncated]
  cases formatOfTag x.builderSel with
  | R => simp [buildR]
  | I => simp [buildI]
  | B => simp [buildB]
  | M => simp [buildM]

/-- Settles O40: each accessor reads the truncation of its operand, which is the operand exactly when it fits. -/
theorem overflowReportsTheLostOperands : Obligations.OverflowReportsTheLostOperands := by
  refine ⟨fun x => ⟨?reported, ?readBack, fun op => rfl, operandOverflow_truncated x, buildSelected_truncated x⟩,
    by decide, by decide, by decide, by decide⟩
  case reported =>
    rw [driveEncoder_operandOverflow, operandOverflow]
    cases formatOfTag x.builderSel with
    | R => exact overflowR_eq_true_iff ..
    | I => exact overflowI_eq_true_iff ..
    | B => exact overflowB_eq_true_iff ..
    | M => exact overflowM_eq_true_iff ..
  case readBack =>
    simp only [driveEncoder_operandOverflow, operandOverflow, driveEncoder_word, buildSelected]
    cases formatOfTag x.builderSel with
    | R => simp only [overflowR_eq_false_iff, rdOf_buildR, rnOf_buildR, rmOf_buildR, truncateToWidth_toNat_eq_iff]
    | I => simp only [overflowI_eq_false_iff, rdOf_buildI, rnOf_buildI, immediateOf_buildI,
        truncateToWidth_toNat_eq_iff]
    | B => simp only [overflowB_eq_false_iff, branchOffsetOf_buildB, truncateToWidth_toNat_eq_iff]
    | M => simp only [overflowM_eq_false_iff, rdOf_buildM, rnOf_buildM, memoryOffsetOf_buildM,
        truncateToWidth_toNat_eq_iff]

end Sys2Proof.Machine
end

section
/-! What each row of the table does (R125 to R131, R133).  The values on the decode-side ports are found once per row
pattern, over any opcode of the pattern's format; a generic and a named row of one format differ only in where the
opcode comes from. -/

namespace Sys2Proof.Machine

/-! ### The decode-side ports from what drives them -/

theorem exec_eq_next_iff {i : Instr} {s t : State} :
    exec i s = .next t ↔ t = s.presentWord (encode s.params i) := by
  rw [exec_presents_the_word, Host.Outcome.next.injEq, eq_comm]

/-- An instruction's next state, once the values on the ports its word drives are known. -/
theorem exec_eq_next_of_ports {i : Instr} {s : State} {w : Word} {a : AccessorRecord} {r : RoutedOut} {op : Opcode}
    {c : ClassifierOut} (word : encode s.params i = w) (accessors : decodeAll w = a) (routed : routeDecode w = r)
    (opcode : opcodeOf w = op) (classifier : classify op = c) :
    exec i s = .next { s with
      word := w, accessors := a, routed := r, classifierIn := op, classifierOut := c } := by
  subst word accessors routed opcode classifier
  exact exec_presents_the_word i s

/-- The classifier by the two parts of its opcode (R43). -/
theorem classify_of_parts {op : Opcode} {t : Tag} {n : OperationNumber} (tag : op.extractLsb' 10 2 = t)
    (number : op.extractLsb' 0 10 = n) :
    classify op = ⟨t, decide (t = 0b00#2), decide (t = 0b01#2), decide (t = 0b10#2), decide (t = 0b11#2), n⟩ := by
  rw [classify_eq_slices, tag, number]

theorem classify_append (t : Tag) (n : OperationNumber) :
    classify (t ++ n)
      = ⟨t, decide (t = 0b00#2), decide (t = 0b01#2), decide (t = 0b10#2), decide (t = 0b11#2), n⟩ :=
  classify_of_parts (slice_tag_append t n) (slice_number_append t n)

/-- The router's decode face by the opcode of its word (R110, R113). -/
theorem routeDecode_of_opcode {w : Word} {op : Opcode} {f : Format} (opcode : opcodeOf w = op)
    (format : formatTagOf op = f) : routeDecode w = ⟨op, f, decodeRouted w, meaningfulMask f⟩ := by
  rw [routeDecode, formatOfWord_eq_formatTagOf_opcodeOf, opcode, format]

/-! ### R-type words -/

section
variable (op : Opcode) (rd rn rm : RegNum) (mode : BitVec 3) (st : BitVec 2) (sa : BitVec 6) (rest : BitVec 26)

theorem opcodeOf_rWord : opcodeOf (rWord op rd rn rm mode st sa rest) = op := by
  rw [opcodeOf_eq_slice, rWord_slice_op]

theorem extendedOf_rWord : extendedOf (rWord op rd rn rm mode st sa rest) = st ++ sa ++ rest := by
  rw [extendedOf_eq_append, shiftTypeOf_eq_slice, shiftAmountOf_eq_slice, rWord_slice_st, rWord_slice_sa,
    rWord_slice_rest]

theorem memoryOffsetOf_rWord : memoryOffsetOf (rWord op rd rn rm mode st sa rest) = sa ++ rest := by
  rw [memoryOffsetOf_eq_append, shiftAmountOf_eq_slice, rWord_slice_sa, rWord_slice_rest]

theorem branchOffsetOf_rWord :
    branchOffsetOf (rWord op rd rn rm mode st sa rest)
      = rd.extractLsb' 0 1 ++ rn ++ rm ++ mode ++ st ++ sa ++ rest := by
  apply BitVec.eq_of_toNat_eq
  simp only [branchOffsetOf_eq_slice, extractLsb'_toNat_div, rWord_toNat, append_toNat]
  omega

/-- Every accessor of an R-type word (R46, R125). -/
theorem decodeAll_rWord :
    decodeAll (rWord op rd rn rm mode st sa rest) =
      { opcode := op, rd := rd, rn := rn, rm := rm, mode := mode
        extended := st ++ sa ++ rest
        immediate := st ++ sa ++ rest
        branchOffset := rd.extractLsb' 0 1 ++ rn ++ rm ++ mode ++ st ++ sa ++ rest
        memoryOffset := sa ++ rest
        shiftType := st, shiftAmount := sa } := by
  simp only [decodeAll, opcodeOf_rWord, immediateOf_eq_extendedOf, extendedOf_rWord, memoryOffsetOf_rWord,
    branchOffsetOf_rWord, rdOf_eq_slice, rnOf_eq_slice, rmOf_eq_slice, modeOf_eq_slice, shiftTypeOf_eq_slice,
    shiftAmountOf_eq_slice, rWord_slice_rd, rWord_slice_rn, rWord_slice_rm, rWord_slice_mode, rWord_slice_st,
    rWord_slice_sa]

variable {op rd rn rm mode st sa rest}

theorem routeDecode_rWord (tag : op.extractLsb' 10 2 = 0b00#2) :
    routeDecode (rWord op rd rn rm mode st sa rest) = ⟨op, .R, .R op rd rn rm st sa, meaningfulMask .R⟩ := by
  have format : formatTagOf op = .R := (formatTagOf_eq_iff_tag op .R).mpr tag
  rw [routeDecode_of_opcode (opcodeOf_rWord ..) format, decodeRouted_rWord format]

end

/-- Settles O8: the opcode is the tag 00 over the row's operation number. -/
theorem rFormatWordDrivesTheDecodePorts : Obligations.RFormatWordDrivesTheDecodePorts := by
  intro n rd rn rm mode st sa rest s
  exact exec_eq_next_of_ports rfl (decodeAll_rWord ..) (routeDecode_rWord (slice_tag_append _ n))
    (opcodeOf_rWord ..) (classify_append _ n)

/-- Settles O12: the opcode is the parameter, of which R6 says the tag only. -/
theorem addRegWordDrivesTheDecodePorts : Obligations.AddRegWordDrivesTheDecodePorts := by
  intro rd rn rm mode st sa rest s tag
  exact exec_eq_next_of_ports rfl (decodeAll_rWord ..) (routeDecode_rWord tag) (opcodeOf_rWord ..)
    (classify_of_parts tag rfl)

/-! ### I-type words -/

section
variable (op : Opcode) (rd rn : RegNum) (ignored : BitVec 8) (imm : BitVec 34) {lo len : Nat}

theorem opcodeOf_iWord : opcodeOf (iWord op rd rn ignored imm) = op := by
  rw [opcodeOf_eq_slice, iWord_slice_op]

theorem iWord_slice_within_imm (inside : lo + len ≤ 34) :
    (iWord op rd rn ignored imm).extractLsb' lo len = imm.extractLsb' lo len := by
  rw [iWord, BitVec.extractLsb'_append_eq_of_add_le inside]

theorem iWord_slice_within_ignored (above : 34 ≤ lo) (inside : lo - 34 + len ≤ 8) :
    (iWord op rd rn ignored imm).extractLsb' lo len = ignored.extractLsb' (lo - 34) len := by
  rw [iWord, BitVec.extractLsb'_append_eq_of_le above, BitVec.extractLsb'_append_eq_of_add_le inside]

theorem branchOffsetOf_iWord :
    branchOffsetOf (iWord op rd rn ignored imm) = rd.extractLsb' 0 1 ++ rn ++ ignored ++ imm := by
  apply BitVec.eq_of_toNat_eq
  simp only [branchOffsetOf_eq_slice, extractLsb'_toNat_div, iWord_toNat, append_toNat]
  omega

/-- Every accessor of an I-type word (R47, R126). -/
theorem decodeAll_iWord :
    decodeAll (iWord op rd rn ignored imm) =
      { opcode := op, rd := rd, rn := rn, rm := ignored.extractLsb' 3 5, mode := ignored.extractLsb' 0 3
        extended := imm
        immediate := imm
        branchOffset := rd.extractLsb' 0 1 ++ rn ++ ignored ++ imm
        memoryOffset := imm.extractLsb' 0 32
        shiftType := imm.extractLsb' 32 2, shiftAmount := imm.extractLsb' 26 6 } := by
  simp (disch := decide) only [decodeAll, opcodeOf_iWord, branchOffsetOf_iWord, rdOf_eq_slice, rnOf_eq_slice,
    rmOf_eq_slice, modeOf_eq_slice, extendedOf_eq_slice, immediateOf_eq_slice, memoryOffsetOf_eq_slice,
    shiftTypeOf_eq_slice, shiftAmountOf_eq_slice, iWord_slice_rd, iWord_slice_rn,
    iWord_slice_within_ignored, iWord_slice_within_imm, BitVec.extractLsb'_eq_self, Nat.reduceSub]

variable {op rd rn ignored imm}

theorem routeDecode_iWord (tag : op.extractLsb' 10 2 = 0b01#2) :
    routeDecode (iWord op rd rn ignored imm) = ⟨op, .I, .I op rd rn imm, meaningfulMask .I⟩ := by
  have opcode := opcodeOf_iWord op rd rn ignored imm
  have format : formatTagOf op = .I := (formatTagOf_eq_iff_tag op .I).mpr tag
  rw [routeDecode_of_opcode opcode format, decodeRouted_of_format_I opcode format, rdOf_eq_slice, rnOf_eq_slice,
    immediateOf_eq_slice, iWord_slice_rd, iWord_slice_rn, iWord_slice_imm]

end

/-- Settles O9: the opcode is the tag 01 over the row's operation number. -/
theorem iFormatWordDrivesTheDecodePorts : Obligations.IFormatWordDrivesTheDecodePorts := by
  intro n rd rn ignored imm s
  exact exec_eq_next_of_ports rfl (decodeAll_iWord ..) (routeDecode_iWord (slice_tag_append _ n))
    (opcodeOf_iWord ..) (classify_append _ n)

/-! ### B-type words -/

section
variable (op : Opcode) (ignored : BitVec 4) (off : BitVec 48) {lo len : Nat}

theorem opcodeOf_bWord : opcodeOf (bWord op ignored off) = op := by
  rw [opcodeOf_eq_slice, bWord_slice_op]

theorem bWord_slice_within_off (inside : lo + len ≤ 48) :
    (bWord op ignored off).extractLsb' lo len = off.extractLsb' lo len := by
  rw [bWord, BitVec.extractLsb'_append_eq_of_add_le inside]

/-- The register field at the top lies over the ignored bits and the offset's bit 47 (R48). -/
theorem rdOf_bWord : rdOf (bWord op ignored off) = ignored ++ off.extractLsb' 47 1 := by
  apply BitVec.eq_of_toNat_eq
  simp only [rdOf_eq_slice, extractLsb'_toNat_div, bWord_toNat, append_toNat]
  omega

/-- Every accessor of a B-type word (R48, R127). -/
theorem decodeAll_bWord :
    decodeAll (bWord op ignored off) =
      { opcode := op
        rd := ignored ++ off.extractLsb' 47 1
        rn := off.extractLsb' 42 5, rm := off.extractLsb' 37 5, mode := off.extractLsb' 34 3
        extended := off.extractLsb' 0 34
        immediate := off.extractLsb' 0 34
        branchOffset := off
        memoryOffset := off.extractLsb' 0 32
        shiftType := off.extractLsb' 32 2, shiftAmount := off.extractLsb' 26 6 } := by
  simp (disch := decide) only [decodeAll, opcodeOf_bWord, rdOf_bWord, rnOf_eq_slice, rmOf_eq_slice, modeOf_eq_slice,
    extendedOf_eq_slice, immediateOf_eq_slice, branchOffsetOf_eq_slice, memoryOffsetOf_eq_slice, shiftTypeOf_eq_slice,
    shiftAmountOf_eq_slice, bWord_slice_within_off, BitVec.extractLsb'_eq_self]

variable {op ignored off}

theorem routeDecode_bWord (tag : op.extractLsb' 10 2 = 0b10#2) :
    routeDecode (bWord op ignored off) = ⟨op, .B, .B op off, meaningfulMask .B⟩ := by
  have opcode := opcodeOf_bWord op ignored off
  have format : formatTagOf op = .B := (formatTagOf_eq_iff_tag op .B).mpr tag
  rw [routeDecode_of_opcode opcode format, decodeRouted_of_format_B opcode format, branchOffsetOf_eq_slice,
    bWord_slice_off]

end

/-- Settles O10: the opcode is the tag 10 over the row's operation number. -/
theorem bFormatWordDrivesTheDecodePorts : Obligations.BFormatWordDrivesTheDecodePorts := by
  intro n ignored off s
  exact exec_eq_next_of_ports rfl (decodeAll_bWord ..) (routeDecode_bWord (slice_tag_append _ n))
    (opcodeOf_bWord ..) (classify_append _ n)

/-- Settles O13: the opcode is the parameter, as for ADD_REG. -/
theorem bWordDrivesTheDecodePorts : Obligations.BWordDrivesTheDecodePorts := by
  intro ignored off s tag
  exact exec_eq_next_of_ports rfl (decodeAll_bWord ..) (routeDecode_bWord tag) (opcodeOf_bWord ..)
    (classify_of_parts tag rfl)

/-! ### M-type words -/

section
variable (op : Opcode) (rd rn : RegNum) (ignored : BitVec 10) (off : BitVec 32) {lo len : Nat}

theorem opcodeOf_mWord : opcodeOf (mWord op rd rn ignored off) = op := by
  rw [opcodeOf_eq_slice, mWord_slice_op]

theorem mWord_slice_within_off (inside : lo + len ≤ 32) :
    (mWord op rd rn ignored off).extractLsb' lo len = off.extractLsb' lo len := by
  rw [mWord, BitVec.extractLsb'_append_eq_of_add_le inside]

theorem mWord_slice_within_ignored (above : 32 ≤ lo) (inside : lo - 32 + len ≤ 10) :
    (mWord op rd rn ignored off).extractLsb' lo len = ignored.extractLsb' (lo - 32) len := by
  rw [mWord, BitVec.extractLsb'_append_eq_of_le above, BitVec.extractLsb'_append_eq_of_add_le inside]

/-- The extended region is two bits wider than the offset (R49). -/
theorem extendedOf_mWord : extendedOf (mWord op rd rn ignored off) = ignored.extractLsb' 0 2 ++ off := by
  apply BitVec.eq_of_toNat_eq
  simp only [extendedOf_eq_slice, extractLsb'_toNat_div, mWord_toNat, append_toNat]
  omega

theorem branchOffsetOf_mWord :
    branchOffsetOf (mWord op rd rn ignored off) = rd.extractLsb' 0 1 ++ rn ++ ignored ++ off := by
  apply BitVec.eq_of_toNat_eq
  simp only [branchOffsetOf_eq_slice, extractLsb'_toNat_div, mWord_toNat, append_toNat]
  omega

/-- Every accessor of an M-type word (R49, R128). -/
theorem decodeAll_mWord :
    decodeAll (mWord op rd rn ignored off) =
      { opcode := op, rd := rd, rn := rn, rm := ignored.extractLsb' 5 5, mode := ignored.extractLsb' 2 3
        extended := ignored.extractLsb' 0 2 ++ off
        immediate := ignored.extractLsb' 0 2 ++ off
        branchOffset := rd.extractLsb' 0 1 ++ rn ++ ignored ++ off
        memoryOffset := off
        shiftType := ignored.extractLsb' 0 2, shiftAmount := off.extractLsb' 26 6 } := by
  simp (disch := decide) only [decodeAll, opcodeOf_mWord, immediateOf_eq_extendedOf, extendedOf_mWord,
    branchOffsetOf_mWord, rdOf_eq_slice, rnOf_eq_slice, rmOf_eq_slice, modeOf_eq_slice, memoryOffsetOf_eq_slice,
    shiftTypeOf_eq_slice, shiftAmountOf_eq_slice, mWord_slice_rd, mWord_slice_rn, mWord_slice_within_ignored,
    mWord_slice_within_off, BitVec.extractLsb'_eq_self, Nat.reduceSub]

variable {op rd rn ignored off}

theorem routeDecode_mWord (tag : op.extractLsb' 10 2 = 0b11#2) :
    routeDecode (mWord op rd rn ignored off) = ⟨op, .M, .M op rd rn off, meaningfulMask .M⟩ := by
  have opcode := opcodeOf_mWord op rd rn ignored off
  have format : formatTagOf op = .M := (formatTagOf_eq_iff_tag op .M).mpr tag
  rw [routeDecode_of_opcode opcode format, decodeRouted_of_format_M opcode format, rdOf_eq_slice, rnOf_eq_slice,
    memoryOffsetOf_eq_slice, mWord_slice_rd, mWord_slice_rn, mWord_slice_off]

end

/-- Settles O11: the opcode is the tag 11 over the row's operation number. -/
theorem mFormatWordDrivesTheDecodePorts : Obligations.MFormatWordDrivesTheDecodePorts := by
  intro n rd rn ignored off s
  exact exec_eq_next_of_ports rfl (decodeAll_mWord ..) (routeDecode_mWord (slice_tag_append _ n))
    (opcodeOf_mWord ..) (classify_append _ n)

/-- Settles O14: the opcode is the parameter, as for ADD_REG. -/
theorem ldrWordDrivesTheDecodePorts : Obligations.LdrWordDrivesTheDecodePorts := by
  intro rd rn ignored off s tag
  exact exec_eq_next_of_ports rfl (decodeAll_mWord ..) (routeDecode_mWord tag) (opcodeOf_mWord ..)
    (classify_of_parts tag rfl)

/-! ### The frame of all seven rows -/

/-- Settles O15: presenting a word is all that any row does. -/
theorem instructionWordsLeaveTheOtherPortsAlone : Obligations.InstructionWordsLeaveTheOtherPortsAlone := by
  intro i s t h
  obtain rfl := exec_eq_next_iff.mp h
  exact ⟨rfl, rfl, rfl, rfl, rfl, rfl, rfl, rfl⟩

end Sys2Proof.Machine
end

section
/-! Words written out by hand, read through the table (R125 to R131): such a word is the encoding of its instruction,
and decoding undoes the encoding. -/

namespace Sys2Proof

theorem decodeTableWord_of_encode {i : Instr} {w : Nat}
    (encoded : encode Config.defaultParams i = BitVec.ofNat 64 w) (wf : i.wf Config.defaultParams = true) :
    decodeTableWord 64 w = some i := by
  have tags : Config.defaultParams.tagsAgree = true := by decide
  have bits : BitVec.ofNat 64 (w % 2 ^ 64) = encode Config.defaultParams i := by
    rw [encoded]
    exact BitVec.eq_of_toNat_eq (Nat.mod_mod ..)
  rw [decodeTableWord, bits, decodeWord_encode tags wf]

/-- Settles O4: each word is its instruction's encoding under the default opcodes. -/
theorem writtenOutWordsDecode : Obligations.WrittenOutWordsDecode := by
  refine ⟨?_, ?_, ?_, ?_, ?_, ?_, ?_⟩ <;> exact decodeTableWord_of_encode (by decide) (by decide)

end Sys2Proof
end

section
/-! No run stops (R140, R167): every step answers a next state, at the price of one invocation, and the parameters stay
as they are (R157). -/

namespace Sys2Proof.Machine

/-- A step takes the oldest invocation off the list, and nothing off an empty one (log entry 4). -/
theorem step_uses_up_one_invocation (s : State) :
    ∃ t : State, step s = .next t ∧ t.pending = s.pending.tail ∧ t.params = s.params := by
  obtain ⟨pending, idle⟩ | ⟨inv, rest, pending, serves⟩ := step_cases s
  · exact ⟨s, idle, by rw [pending, List.tail_nil], rfl⟩
  · exact ⟨_, serves, by rw [serve_pending, pending, List.tail_cons], serve_params _ inv⟩

/-- Settles O16, by induction on the number of steps. -/
theorem noRunEverStops : Obligations.NoRunEverStops := by
  intro k
  induction k with
  | zero => exact fun s => ⟨s, rfl, rfl, rfl⟩
  | succ k ih =>
    intro s
    obtain ⟨u, first, firstPending, firstParams⟩ := step_uses_up_one_invocation s
    obtain ⟨t, others, pending, params⟩ := ih u
    refine ⟨t, (run_succ_of_step k first).trans others, ?usedUp, params.trans firstParams⟩
    rw [pending, firstPending, List.drop_tail]

end Sys2Proof.Machine
end

section
/-! The producer's contracts (R142, R158, R159): a builder that matches its opcode builds the routed word, which is
canonical, and operands within their fields come back unchanged. -/

namespace Sys2Proof.Machine

theorem producerContract_iff (x : EncoderIn) :
    producerContract x = true ↔ builderMismatch x.builderSel x.op = false ∧ operandOverflow x = false := by
  rw [producerContract, Bool.and_eq_true, Bool.not_eq_true', Bool.not_eq_true']

theorem formatOfTag_of_match {sel : Tag} {op : Opcode} (h : builderMismatch sel op = false) :
    formatOfTag sel = formatTagOf op := by
  rw [(builderMismatch_eq_false_iff sel op).mp h, formatTagOf_eq_formatOfTag]

/-- Settles O41: in each format the payload is the truncated operands, and the operands fit. -/
theorem keptContractGivesTheOperandsBack : Obligations.KeptContractGivesTheOperandsBack := by
  intro x contract
  obtain ⟨matched, fit⟩ := (producerContract_iff x).mp contract
  rw [driveEncoder_builderMismatch, driveEncoder_operandOverflow, driveEncoder_word, buildSelected_of_match matched]
  refine ⟨matched, fit, canonical_encodeRouted .., ?operandsBack⟩
  rw [operandOverflow, formatOfTag_of_match matched] at fit
  cases format : formatTagOf x.op with
  | R =>
    rw [format] at fit
    obtain ⟨rd, rn, rm⟩ := (overflowR_eq_false_iff ..).mp fit
    rw [encodeRouted_of_format_R format, decodeRouted_buildR format]
    exact ⟨rfl, truncateToWidth_of_lt rd, truncateToWidth_of_lt rn, truncateToWidth_of_lt rm, rfl, rfl⟩
  | I =>
    rw [format] at fit
    obtain ⟨rd, rn, imm⟩ := (overflowI_eq_false_iff ..).mp fit
    rw [encodeRouted_of_format_I format, decodeRouted_buildI format]
    exact ⟨rfl, truncateToWidth_of_lt rd, truncateToWidth_of_lt rn, truncateToWidth_of_lt imm⟩
  | B =>
    rw [format] at fit
    have offset := (overflowB_eq_false_iff _).mp fit
    rw [encodeRouted_of_format_B format, decodeRouted_buildB format]
    exact ⟨rfl, truncateToWidth_of_lt offset⟩
  | M =>
    rw [format] at fit
    obtain ⟨rd, rn, offset⟩ := (overflowM_eq_false_iff ..).mp fit
    rw [encodeRouted_of_format_M format, decodeRouted_buildM format]
    exact ⟨rfl, truncateToWidth_of_lt rd, truncateToWidth_of_lt rn, truncateToWidth_of_lt offset⟩

end Sys2Proof.Machine
end

section
/-! The lookup of a defined operation (R141, R163): what it finds stands in the table under any parameters; that
nothing else does under the same opcode is R164. -/

namespace Sys2Proof.Machine

variable {p : Params} {op : Opcode} {o : Operation}

theorem isKnown_eq_true_iff : isKnown p op = true ↔ ∃ o ∈ p.operationTable, o.opcode = op := by
  rw [isKnown, List.contains_iff_mem, List.mem_map]

theorem lookupOperation_eq_none_iff : lookupOperation p op = none ↔ isKnown p op = false := by
  rw [← Bool.not_eq_true, isKnown_eq_true_iff, lookupOperation, List.find?_eq_none]
  simp only [beq_iff_eq, not_exists, not_and]

/-- Under any parameters, what the lookup answers is a defined operation of that opcode. -/
theorem mem_of_lookupOperation_eq_some (found : lookupOperation p op = some o) :
    o ∈ p.operationTable ∧ o.opcode = op := by
  rw [lookupOperation] at found
  have sameOpcode := List.find?_some found
  exact ⟨List.mem_of_find?_eq_some found, beq_iff_eq.mp sameOpcode⟩

/-- No two defined operations share an opcode (R54, R164). -/
theorem operation_unique_of_wf (wf : p.wf = true) {o' : Operation} (defined : o ∈ p.operationTable)
    (defined' : o' ∈ p.operationTable) (sameOpcode : o.opcode = o'.opcode) : o = o' := by
  obtain ⟨_, distinct⟩ := Bool.and_eq_true_iff.mp wf
  exact List.inj_on_of_nodup_map (of_decide_eq_true distinct) defined defined' sameOpcode

/-- A defined opcode is looked up to some operation, and there is only one it can be. -/
theorem lookupOperation_eq_some_iff (wf : p.wf = true) :
    lookupOperation p op = some o ↔ o ∈ p.operationTable ∧ o.opcode = op := by
  refine ⟨mem_of_lookupOperation_eq_some, fun ⟨defined, opcode⟩ => ?_⟩
  cases answer : lookupOperation p op with
  | none =>
    have known : isKnown p op = true := isKnown_eq_true_iff.mpr ⟨o, defined, opcode⟩
    rw [lookupOperation_eq_none_iff, known] at answer
    cases answer
  | some o' =>
    obtain ⟨defined', opcode'⟩ := mem_of_lookupOperation_eq_some answer
    rw [operation_unique_of_wf wf defined' defined (opcode'.trans opcode.symm)]

/-- Settles O46. -/
theorem lookupFindsTheOnlyOperation : Obligations.LookupFindsTheOnlyOperation :=
  fun _ _ wf => ⟨fun _ => lookupOperation_eq_some_iff wf, lookupOperation_eq_none_iff⟩

end Sys2Proof.Machine
end

section
/-! What a consumer may read (R160) lies within the bits that mean something (R56, R110), with the shift sub-fields of
an operation that takes a shifted operand (R50).  Those bits hold the opcode, and the opcode decides which fields may be
read, so stray bits change neither the readable fields nor their values. -/

namespace Sys2Proof.Machine

/-- The opcode and its parts, which a consumer may read of every word. -/
def opcodeFields : List Field := [.opcode, .formatTag, .operationNumber]

/-- The fields that only an operation with a shifted operand gives a meaning to. -/
def shiftFields : List Field := [.shiftType, .shiftAmount]

/-- The bits of a word that mean something to this consumer: the mask of its format, or the one of R110's second row. -/
def readableMask (c : ConsumerParams) (w : Word) : Word :=
  if shiftFieldsMeaningful c w = true then meaningfulMaskShifted else meaningfulMask (formatOfWord w)

variable {c : ConsumerParams} {w w' : Word} {f : Field}

/-! ### Which fields may be read -/

theorem mayRead_eq_true_iff : mayRead c w f = true ↔
    f ∈ opcodeFields ∨ f ∈ validFields (formatOfWord w) ∨ (shiftFieldsMeaningful c w = true ∧ f ∈ shiftFields) := by
  simp only [mayRead, opcodeFields, shiftFields, Bool.or_eq_true, Bool.and_eq_true, List.contains_iff_mem, or_assoc]

theorem mayRead_opcode : mayRead c w .opcode = true :=
  mayRead_eq_true_iff.mpr (.inl (by decide))

/-- Which fields may be read is a matter of the opcode alone. -/
theorem mayRead_eq_of_opcodeOf_eq (opcode : opcodeOf w = opcodeOf w') : mayRead c w f = mayRead c w' f := by
  simp only [mayRead, shiftFieldsMeaningful, formatOfWord_eq_formatTagOf_opcodeOf, opcode]

/-- Only R-type operations take a shifted operand (R50). -/
theorem formatOfWord_of_shiftFieldsMeaningful (h : shiftFieldsMeaningful c w = true) : formatOfWord w = .R := by
  obtain ⟨isR, _⟩ := Bool.and_eq_true_iff.mp h
  rw [isRType_eq_decide, decide_eq_true_eq] at isR
  rw [formatOfWord_eq_formatTagOf_opcodeOf, formatTagOf_eq_iff_tag, isR, formatNumber]

/-! ### Readable fields lie within the mask -/

theorem meaningfulMask_covers (format : Format) :
    ∀ f ∈ opcodeFields ++ validFields format, (meaningfulMask format).extractLsb' f.lo f.width = .allOnes f.width := by
  cases format <;> decide

theorem meaningfulMaskShifted_covers :
    ∀ f ∈ opcodeFields ++ validFields .R ++ shiftFields,
      meaningfulMaskShifted.extractLsb' f.lo f.width = .allOnes f.width := by
  decide

theorem readableMask_covers (readable : mayRead c w f = true) :
    (readableMask c w).extractLsb' f.lo f.width = .allOnes f.width := by
  rw [mayRead_eq_true_iff] at readable
  by_cases shifted : shiftFieldsMeaningful c w = true
  · rw [formatOfWord_of_shiftFieldsMeaningful shifted] at readable
    rw [readableMask, if_pos shifted]
    apply meaningfulMaskShifted_covers
    simp only [List.mem_append]
    tauto
  · rw [readableMask, if_neg shifted]
    apply meaningfulMask_covers
    simp only [List.mem_append]
    tauto

/-! ### Reading under the mask -/

theorem extract_eq_slice (f : Field) (w : Word) : f.extract w = w.extractLsb' f.lo f.width :=
  fieldAt_eq_extractLsb' _ _ w (by cases f <;> decide)

/-- Words that agree on the meaningful bits agree on every field that may be read of the first. -/
theorem extract_eq_of_mayRead (sameBits : w &&& readableMask c w = w' &&& readableMask c w)
    (readable : mayRead c w f = true) : f.extract w = f.extract w' := by
  have covers := readableMask_covers readable
  rw [extract_eq_slice, extract_eq_slice, ← slice_and_of_covers covers, sameBits, slice_and_of_covers covers]

/-- Settles O49: the opcode is itself a readable field, so the words agree on it and with it on what may be read. -/
theorem permittedReadsIgnoreStrayBits : Obligations.PermittedReadsIgnoreStrayBits := by
  intro c w w' f agree
  have sameBits : w &&& readableMask c w = w' &&& readableMask c w := (xor_and_eq_zero_iff w w' _).mp agree
  have sameOpcode : opcodeOf w = opcodeOf w' := extract_eq_of_mayRead (f := .opcode) sameBits mayRead_opcode
  exact ⟨mayRead_eq_of_opcodeOf_eq sameOpcode, extract_eq_of_mayRead sameBits⟩

end Sys2Proof.Machine
end
